-- ==== Sys2Proof/Word.lean ====
section
/-! DEFINITION. The words of the block: a phase pair, a Gray index, the accumulator's word, and the byte in which one input word
is held (spec/00_scope.md R14, R15). -/

namespace Sys2Proof

/-- The 2-bit code of a phase pair (A, B): A is bit 1, B is bit 0 (30_encoding.md R70). -/
abbrev Pair := BitVec 2

/-- The 4-bit Gray index `{PA, PB, CA, CB}` (30_encoding.md R71), the format of the register GRAY (10_state.md R21). -/
abbrev GrayIndex := BitVec 4

/-- The word of the register ACC, 4 bits, two's complement (10_state.md R23). -/
abbrev AccWord := BitVec 4

/-- What one input word is held in: wide enough for every format of 30_encoding.md (2, 4 and, with the button line, 5 bits). -/
abbrev Byte := BitVec 8

end Sys2Proof
end

