-- ==== Sys2Proof/Config.lean ====
section
/-! DEFINITION. The parameters of the block (spec/00_scope.md R9, spec/92_eei_decisions.md "Parameters"). They are fixed for a machine
and held in its state, so that a claim over every state is a claim over every configuration (notes/assumptions/4.md). -/

namespace Sys2Proof

/-- P_INVALID_ACC: what an INVALID transition does to ACC (R9; 42_encoder_step_detector.md R112). -/
inductive InvalidAcc where
  | hold   -- ACC unchanged, the specified value
  | clear  -- ACC set to 0
  deriving DecidableEq, Repr

/-- The parameters of R9 that the spec exposes. N_PHASE, EDGES_PER_STEP, N_GRAY, GRAY_W and ACC_W are fixed in the model's types and
definitions; N_INST is the length of the list of instances. -/
structure Config where
  /-- P_INVALID_ACC. -/
  invalidAcc : InvalidAcc
  /-- TICK_W, the width of TICKS. -/
  tickW : Nat
  /-- HAS_INVCNT: the register INVCNT exists. -/
  hasInvcnt : Bool
  /-- INV_W, the width of INVCNT. -/
  invW : Nat
  /-- HAS_POS: the PositionCounter is attached. -/
  hasPos : Bool
  /-- POS_W, the width of POS. -/
  posW : Nat
  /-- HAS_PUSH: the push-button companion exists. -/
  hasPush : Bool
  /-- PUSH_ACTIVE: the debounced level that means "pressed". -/
  pushActive : Bool
  deriving DecidableEq, Repr

/-- PUSH_ACTIVE is OPEN (R9, 43_position_counter.md R132): a constant without a body, so that no proof can know its value
(notes/assumptions/13.md). -/
opaque Config.openPushActive : Bool

/-- The specified hardware: the values of R9. DESIGN CHOICE, safe: the OPEN PUSH_ACTIVE is a constant without a body. -/
def Config.specified : Config where
  invalidAcc := .hold
  tickW := 32
  hasInvcnt := false
  invW := 32
  hasPos := true
  posW := 32
  hasPush := false
  pushActive := Config.openPushActive

end Sys2Proof
end

