-- ==== Sys2Proof/Syntax.lean ====
section
/-! DEFINITION. The operations of the block: one constructor of `Instr` for each row of spec/opcode_table.json, and the enumerations
their operands and results are made of. -/

namespace Sys2Proof

/-- The result of a sample (00_scope.md R17, 30_encoding.md R73): three values, so that the reserved code `10` cannot be written (R79). -/
inductive Step where
  | none | right | left
  deriving DecidableEq, Repr

/-- An entry of the TransitionTable: a tagged enumeration, not a number (20_memory.md R40). -/
inductive Entry where
  | zero | plus | minus | invalid
  deriving DecidableEq, Repr

/-- The formats of spec/opcode_table.json: the input word (30_encoding.md R75), the Gray index (R78), the Step (R83). -/
inductive Format where
  | op | gidx | step
  deriving DecidableEq, Repr

/-- The operations. `a`, `b` are the levels of the two lines, `sw` the raw level of the push-button line that accompanies every INIT and
every SAMPLE, so also every case of SAMPLE (43_position_counter.md R130; notes/assumptions/12.md). -/
inductive Instr where
  | init (a b sw : Bool)      -- INIT
  | sample (a b sw : Bool)    -- SAMPLE
  | idle                      -- IDLE
  | tStay0 (sw : Bool)        -- T.STAY.0
  | tBwd1 (sw : Bool)         -- T.BWD.1
  | tFwd2 (sw : Bool)         -- T.FWD.2
  | tInv3 (sw : Bool)         -- T.INV.3
  | tFwd4 (sw : Bool)         -- T.FWD.4
  | tStay5 (sw : Bool)        -- T.STAY.5
  | tInv6 (sw : Bool)         -- T.INV.6
  | tBwd7 (sw : Bool)         -- T.BWD.7
  | tBwd8 (sw : Bool)         -- T.BWD.8
  | tInv9 (sw : Bool)         -- T.INV.9
  | tStay10 (sw : Bool)       -- T.STAY.10
  | tFwd11 (sw : Bool)        -- T.FWD.11
  | tInv12 (sw : Bool)        -- T.INV.12
  | tFwd13 (sw : Bool)        -- T.FWD.13
  | tBwd14 (sw : Bool)        -- T.BWD.14
  | tStay15 (sw : Bool)       -- T.STAY.15
  | applyNone                 -- APPLY.NONE
  | applyRight                -- APPLY.RIGHT
  | applyLeft                 -- APPLY.LEFT
  deriving DecidableEq, Repr

/-- A line of the written listing syntax (30_encoding.md R81) or one of its pseudo-operations (R82). -/
inductive Line where
  | init (a b : Bool)
  | s (a b : Bool)
  | idle
  | fwd | bwd | same | jump
  deriving DecidableEq, Repr

end Sys2Proof
end

