-- ==== Sys2Proof/Decode.lean ====
section
/-! DEFINITION. Words to operations and back (spec/30_encoding.md). The table's three formats share bit patterns (0x0 is IDLE, T.STAY.0
and APPLY.NONE), so a word is decoded in a format (notes/assumptions/11.md). Decoding is total on every byte and rejects by name. -/

namespace Sys2Proof

/-- The pair code `2*A + B` (30_encoding.md R70). -/
def pairCode (a b : Bool) : Pair := (BitVec.ofBool a ++ BitVec.ofBool b : BitVec 2)

/-- The two levels of a pair code (R70). -/
def pairLevels (p : Pair) : Bool × Bool := (p.getLsbD 1, p.getLsbD 0)

/-- The Step code, two's complement of the signed step (R73). -/
def Step.code : Step → BitVec 2
  | .none => 0b00#2
  | .right => 0b01#2
  | .left => 0b11#2

/-- Reading a Step code; `10` is reserved and is no Step (R73, R79). -/
def Step.ofCode? (c : BitVec 2) : Option Step :=
  if c = 0b00#2 then some Step.none
  else if c = 0b01#2 then some Step.right
  else if c = 0b11#2 then some Step.left
  else Option.none

/-- Why a word is no operation. -/
inductive Reject where
  /-- A bit is set that the format does not have: bit 4 (`sw`) with HAS_PUSH = 0, or a higher one (30_encoding.md R75, R78, R83). -/
  | bitsBeyondFormat
  /-- Step code `10`: reserved, refused (R79; 93_implementation_defined.md U4). -/
  | reservedStepCode
  deriving DecidableEq, Repr

/-- The cases of SAMPLE by Gray index: the sixteen GIDX rows (R78). -/
def transitionRows : Vector (Bool → Instr) 16 :=
  #v[.tStay0,  .tBwd1,  .tFwd2,   .tInv3,
     .tFwd4,   .tStay5, .tInv6,   .tBwd7,
     .tBwd8,   .tInv9,  .tStay10, .tFwd11,
     .tInv12,  .tFwd13, .tBwd14,  .tStay15]

/-- The case of SAMPLE at a Gray index, with the button level of that SAMPLE. -/
def transitionRow (idx : GrayIndex) (sw : Bool) : Instr := transitionRows[idx.toFin] sw

/-- The operation the levels `{r, e, a, b}` select: `r` has priority over `e` (R77; 40_quadrature_decoder.md R91). -/
def opOfLevels (r e a b sw : Bool) : Instr :=
  if r then .init a b sw else if e then .sample a b sw else .idle

/-- APPLY with a Step as its operand (R83). -/
def applyRow : Step → Instr
  | .none => .applyNone
  | .right => .applyRight
  | .left => .applyLeft

/-- The bits of a byte that a format does not have: bit 4 is the button level, there only when HAS_PUSH = 1 (R75). -/
def Format.bitsBeyond (hasPush : Bool) : Format → Byte
  | .op | .gidx => if hasPush then 0xE0#8 else 0xF0#8
  | .step => 0xFC#8

/-- The word of a format as an operation (R77 for OP, R78 for GIDX, R73 and R83 for STEP). -/
def decode (hasPush : Bool) (f : Format) (w : Byte) : Except Reject Instr :=
  if w &&& f.bitsBeyond hasPush ≠ 0#8 then .error .bitsBeyondFormat
  else
    match f with
    | .op => .ok (opOfLevels (w.getLsbD 3) (w.getLsbD 2) (w.getLsbD 1) (w.getLsbD 0) (w.getLsbD 4))
    | .gidx => .ok (transitionRow (w.extractLsb' 0 4) (w.getLsbD 4))
    | .step =>
      match Step.ofCode? (w.extractLsb' 0 2) with
      | some st => .ok (applyRow st)
      | none => .error .reservedStepCode

/-- The OP word `{sw, r, e, a, b}` (R75). -/
def opWord (sw r e a b : Bool) : Byte :=
  (0#3 ++ BitVec.ofBool sw ++ BitVec.ofBool r ++ BitVec.ofBool e ++ pairCode a b : BitVec 8)

/-- The GIDX word: the index, with the button level of the SAMPLE above it. -/
def gidxWord (sw : Bool) (idx : GrayIndex) : Byte :=
  (0#3 ++ BitVec.ofBool sw ++ idx : BitVec 8)

/-- The STEP word (R83). -/
def stepWord (st : Step) : Byte := (0#6 ++ st.code : BitVec 8)

/-- The canonical word of an operation (R77: INIT with `e` = 0, IDLE with `a` = `b` = 0), and the format it is a word of. -/
def encode : Instr → Format × Byte
  | .init a b sw => (.op, opWord sw true false a b)
  | .sample a b sw => (.op, opWord sw false true a b)
  | .idle => (.op, opWord false false false false false)
  | .tStay0 sw => (.gidx, gidxWord sw 0b0000#4)
  | .tBwd1 sw => (.gidx, gidxWord sw 0b0001#4)
  | .tFwd2 sw => (.gidx, gidxWord sw 0b0010#4)
  | .tInv3 sw => (.gidx, gidxWord sw 0b0011#4)
  | .tFwd4 sw => (.gidx, gidxWord sw 0b0100#4)
  | .tStay5 sw => (.gidx, gidxWord sw 0b0101#4)
  | .tInv6 sw => (.gidx, gidxWord sw 0b0110#4)
  | .tBwd7 sw => (.gidx, gidxWord sw 0b0111#4)
  | .tBwd8 sw => (.gidx, gidxWord sw 0b1000#4)
  | .tInv9 sw => (.gidx, gidxWord sw 0b1001#4)
  | .tStay10 sw => (.gidx, gidxWord sw 0b1010#4)
  | .tFwd11 sw => (.gidx, gidxWord sw 0b1011#4)
  | .tInv12 sw => (.gidx, gidxWord sw 0b1100#4)
  | .tFwd13 sw => (.gidx, gidxWord sw 0b1101#4)
  | .tBwd14 sw => (.gidx, gidxWord sw 0b1110#4)
  | .tStay15 sw => (.gidx, gidxWord sw 0b1111#4)
  | .applyNone => (.step, stepWord .none)
  | .applyRight => (.step, stepWord .right)
  | .applyLeft => (.step, stepWord .left)

/-- The format in which a bare table word of `nbits` bits reaches the block. The block's one input port takes words of format OP (R75,
R76), all sixteen of which R77 defines; only a word too short for OP is a Step. DESIGN CHOICE, safe (notes/assumptions/11.md): a bare
word of a GIDX row is bit for bit an OP word and is read as one. -/
def formatOfBits (nbits : Nat) : Format := if nbits ≤ 2 then .step else .op

/-- The byte that a bare table word is held in; a number that is no byte becomes one that every format refuses. -/
def byteOfWord (w : Nat) : Byte := if w < 256 then BitVec.ofNat 8 w else 0xFF#8

/-- What the decoder of the specified hardware reads from an instruction whose bits are `w`. -/
def decodeTableWord (nbits w : Nat) : Option Instr :=
  match decode Config.specified.hasPush (formatOfBits nbits) (byteOfWord w) with
  | .ok i => some i
  | .error _ => none

/-- A row of spec/opcode_table.json: its number in the table, its format, and the bits that tell it apart. -/
structure OpcodeRow where
  number : Nat
  format : Format
  mask : Byte
  pattern : Byte
  deriving DecidableEq, Repr

/-- The rows of spec/opcode_table.json as it lists them: format, "mask", "match". -/
def opcodeRows : List OpcodeRow :=
  [⟨0, .op, 0x8#8, 0x8#8⟩, ⟨1, .op, 0xC#8, 0x4#8⟩, ⟨2, .op, 0xC#8, 0x0#8⟩] ++
  [⟨3, .gidx, 0xF#8, 0x0#8⟩, ⟨4, .gidx, 0xF#8, 0x1#8⟩, ⟨5, .gidx, 0xF#8, 0x2#8⟩, ⟨6, .gidx, 0xF#8, 0x3#8⟩,
   ⟨7, .gidx, 0xF#8, 0x4#8⟩, ⟨8, .gidx, 0xF#8, 0x5#8⟩, ⟨9, .gidx, 0xF#8, 0x6#8⟩, ⟨10, .gidx, 0xF#8, 0x7#8⟩,
   ⟨11, .gidx, 0xF#8, 0x8#8⟩, ⟨12, .gidx, 0xF#8, 0x9#8⟩, ⟨13, .gidx, 0xF#8, 0xA#8⟩, ⟨14, .gidx, 0xF#8, 0xB#8⟩,
   ⟨15, .gidx, 0xF#8, 0xC#8⟩, ⟨16, .gidx, 0xF#8, 0xD#8⟩, ⟨17, .gidx, 0xF#8, 0xE#8⟩, ⟨18, .gidx, 0xF#8, 0xF#8⟩] ++
  [⟨19, .step, 0x3#8, 0x0#8⟩, ⟨20, .step, 0x3#8, 0x1#8⟩, ⟨21, .step, 0x3#8, 0x3#8⟩]

/-- A word of a format is a word of a row when the row is of that format and the word has the row's bits. -/
def OpcodeRow.matches (r : OpcodeRow) (f : Format) (w : Byte) : Bool :=
  r.format == f && (w &&& r.mask) == r.pattern

/-- The number of an operation's row in spec/opcode_table.json. -/
def Instr.rowNumber : Instr → Nat
  | .init _ _ _ => 0
  | .sample _ _ _ => 1
  | .idle => 2
  | .tStay0 _ => 3
  | .tBwd1 _ => 4
  | .tFwd2 _ => 5
  | .tInv3 _ => 6
  | .tFwd4 _ => 7
  | .tStay5 _ => 8
  | .tInv6 _ => 9
  | .tBwd7 _ => 10
  | .tBwd8 _ => 11
  | .tInv9 _ => 12
  | .tStay10 _ => 13
  | .tFwd11 _ => 14
  | .tInv12 _ => 15
  | .tFwd13 _ => 16
  | .tBwd14 _ => 17
  | .tStay15 _ => 18
  | .applyNone => 19
  | .applyRight => 20
  | .applyLeft => 21

end Sys2Proof
end

