-- ==== Sys2Proof/Machine/State.lean ====
section
/-! DEFINITION. The state of the machine as plain data (spec/10_state.md), the reasons a step can stop, and the state after reset. The
block has no program counter (R27), no status register (R28), no data memory (R35), one mode (60_exceptions.md R149) and no interrupt
(R144): there is nothing of these to hold. -/

namespace Sys2Proof.Machine

/-- The machine stops with a fault. No operation of the block faults (60_exceptions.md R140). -/
inductive Fault where
  /-- Raised by every operation: the environment names an instance that does not exist (there are N_INST, 00_scope.md R9). DESIGN CHOICE,
  safe: the hardware has no such input, the model stops (notes/assumptions/14.md). -/
  | noSuchInstance (k : Nat)
  deriving DecidableEq, Repr

/-- The machine gives an operation no meaning. -/
inductive Refusal where
  /-- Raised by `exec` for an operation that has no meaning yet (none is left). Safe: the model stops. -/
  | notModelled (mnemonic : String)
  /-- Raised by the fetch: the word is no word of its format (30_encoding.md R79). Safe: the model stops. -/
  | undecodable (why : Reject)
  /-- Raised by SAMPLE, its sixteen cases and APPLY on an instance that had no INIT yet: "A model should give a SAMPLE or an APPLY before
  the first INIT no meaning (a fault or a refusal)" (10_state.md R34, 93_implementation_defined.md U1). Safe: the model stops. -/
  | beforeInit
  /-- Raised by a case of SAMPLE whose previous pair is not the stored pair: the table's row is selected only "when the stored pair
  GRAY[1:0] is" that pair (spec/opcode_table.json, 30_encoding.md R78). Safe: the model stops (notes/assumptions/9.md). -/
  | transitionNotSelected (idx : GrayIndex)
  /-- Raised by APPLY when HAS_POS = 0: the PositionCounter "is present when HAS_POS = 1" (43_position_counter.md R125). Safe: the model
  stops (notes/assumptions/10.md). -/
  | positionCounterAbsent
  deriving DecidableEq, Repr

/-- The outputs of one operation (10_state.md R28; `pressed`: 43_position_counter.md R132). -/
structure Output where
  step : Step
  inv : Bool
  oor : Bool
  pressed : Bool
  deriving DecidableEq, Repr

/-- The outputs of INIT and IDLE: None, 0, 0 (R28, 40_quadrature_decoder.md R92, R94), and `pressed` = 0 (R132). -/
def Output.quiet : Output := ⟨.none, false, false, false⟩

/-- One instance of the block: its DecoderState (10_state.md R20) and the registers attached to it. A register that the configuration
leaves out keeps its field, which no operation reads or writes (notes/assumptions/7.md). -/
structure Decoder where
  /-- The instance has had its first INIT (R34; notes/assumptions/3.md). Until then its registers hold one value each
  (notes/assumptions/19.md). -/
  live : Bool
  /-- GRAY (R21). -/
  gray : GrayIndex
  /-- ACC (R23). -/
  acc : AccWord
  /-- TICKS, unsigned, TICK_W bits (R25; notes/assumptions/6.md). -/
  ticks : Nat
  /-- INVCNT, unsigned, INV_W bits, present when HAS_INVCNT = 1 (R26). -/
  invcnt : Nat
  /-- POS, the integer of its two's complement word of POS_W bits, present when HAS_POS = 1 (R29). -/
  pos : Int
  /-- SWLAST, present when HAS_PUSH = 1 (R30). -/
  swlast : Bool
  /-- PUSH, present when HAS_PUSH = 1 (R30). -/
  push : Bool
  /-- MODEL's own: the outputs of the instance's most recent operation (notes/assumptions/8.md). -/
  out : Output
  deriving DecidableEq, Repr

/-- MODEL's own: one operation the environment has issued: the instance it is for, and its word in its format (notes/assumptions/1.md). -/
structure Input where
  inst : Nat
  fmt : Format
  word : Byte
  deriving DecidableEq, Repr

/-- The machine: its configuration, its N_INST instances, and what the environment has issued. -/
structure State where
  /-- The parameters of 00_scope.md R9; no step changes them (notes/assumptions/4.md). -/
  cfg : Config
  /-- The instances; their number is N_INST (R9, 40_quadrature_decoder.md R96). -/
  insts : List Decoder
  /-- MODEL's own: the instance the operation at hand is for (notes/assumptions/14.md). -/
  sel : Nat
  /-- MODEL's own: the operations issued and not yet taken, oldest first (notes/assumptions/1.md). -/
  inputs : List Input
  deriving DecidableEq, Repr

/-- The levels of the lines that the environment gives with an INIT. -/
structure Levels where
  a : Bool
  b : Bool
  sw : Bool
  deriving DecidableEq, Repr

/-- Every register after INIT(a, b), which is the block's only reset: the table of 10_state.md R33. An absent register's field holds 0
(DESIGN CHOICE, safe: nothing reads it; notes/assumptions/7.md). -/
def Decoder.reset (c : Config) (l : Levels) : Decoder where
  live := true
  gray := (pairCode l.a l.b ++ pairCode l.a l.b : BitVec 4)
  acc := 0#4
  ticks := 0
  invcnt := 0
  pos := 0
  swlast := c.hasPush && l.sw
  push := c.hasPush && l.sw
  out := Output.quiet

/-- The machine of configuration `c` after each of its instances was given INIT with the levels its own lines have (70_reset_and_hazards.md
R161), and nothing issued yet. -/
def State.resetFor (c : Config) (lines : List Levels) : State where
  cfg := c
  insts := lines.map (Decoder.reset c)
  sel := 0
  inputs := []

/-- The machine right after reset: the specified hardware, one instance, its lines at (0,0). DESIGN CHOICE, unsafe: the spec gives the reset
for every pair of levels and any number of instances, and a plain state needs one of each (notes/assumptions/2.md). -/
def State.reset : State := State.resetFor Config.specified [⟨false, false, false⟩]

/-- Before the first INIT every register is unspecified (R34): `unknown` holds whatever the registers of each instance hold. DESIGN CHOICE,
unsafe: R34 says two looks at a register there need not agree, and the model gives each one value, which stays until the instance's INIT
(notes/assumptions/19.md). -/
def State.powerUp (c : Config) (unknown : List Decoder) : State where
  cfg := c
  insts := unknown.map fun x => { x with live := false }
  sel := 0
  inputs := []

end Sys2Proof.Machine
end

