-- ==== Sys2Proof/Machine/Operands.lean ====
section
/-! DEFINITION. The operands: the fields of GRAY, the Gray index of a SAMPLE, the TransitionTable, the value of an entry and of a Step, and
the two ways a register wraps. -/

namespace Sys2Proof.Machine

/-- PREV = GRAY[1:0], the stored phase pair: the only part of GRAY that any rule reads (10_state.md R22). -/
def storedPair (gray : GrayIndex) : Pair := gray.extractLsb' 0 2

/-- GRAY[3:2], the pair that was stored before the most recent operation (R21); of an index, its previous pair (30_encoding.md R71). -/
def earlierPair (gray : GrayIndex) : Pair := gray.extractLsb' 2 2

/-- The index `{p, c}` of the transition from pair `p` to pair `c` (R71). -/
def indexOf (p c : Pair) : GrayIndex := (p ++ c : BitVec 4)

/-- The index a SAMPLE forms: `{GRAY[1:0], a, b}` (41_gray_state_machine.md R100, 30_encoding.md R80). -/
def sampleIndex (gray : GrayIndex) (a b : Bool) : GrayIndex := indexOf (storedPair gray) (pairCode a b)

/-- The TransitionTable, entries TT[0] to TT[15] (20_memory.md R44 to R59). -/
def transitionTable : Vector Entry 16 :=
  #v[.zero,    .minus,   .plus,    .invalid,
     .plus,    .zero,    .invalid, .minus,
     .minus,   .invalid, .zero,    .plus,
     .invalid, .plus,    .minus,   .zero]

/-- Lookup: `e = TT[idx]`, always of one whole entry (R101, 20_memory.md R63). -/
def lookup (idx : GrayIndex) : Entry := transitionTable[idx.toFin]

/-- `val(e)`, the integer of an entry; INVALID is not a number and has none (00_scope.md R15, R16). -/
def entryVal? : Entry → Option Int
  | .zero => some 0
  | .plus => some 1
  | .minus => some (-1)
  | .invalid => none

/-- The 2-bit code of an entry: two's complement of the numeric ones, `10` for INVALID (30_encoding.md R72). -/
def entryCode : Entry → BitVec 2
  | .zero => 0b00#2
  | .plus => 0b01#2
  | .minus => 0b11#2
  | .invalid => 0b10#2

/-- The signed step (30_encoding.md R73). -/
def stepValue : Step → Int
  | .none => 0
  | .right => 1
  | .left => -1

/-- An unsigned register of `w` bits keeps a value modulo `2^w` (42_encoder_step_detector.md R117, R118). -/
def wrapUnsigned (w v : Nat) : Nat := v % 2 ^ w

/-- A two's complement register of `w` bits keeps the value of `v` that lies in its range, modulo `2^w` (43_position_counter.md R126). -/
def wrapSigned (w : Nat) (v : Int) : Int := v.bmod (2 ^ w)

end Sys2Proof.Machine
end

