-- ==== Sys2Proof/Machine/Flags.lean ====
section
/-! DEFINITION. The step detector and the outputs of a SAMPLE: the accumulator by cases, the emitted Step, the flags `inv` and `oor`, the
counters, and the push-button debounce. -/

namespace Sys2Proof.Machine

/-- A legal value of ACC: int(ACC) in {-3, ..., +3} (10_state.md R24). -/
def accLegal (acc : AccWord) : Bool := -3 ≤ acc.toInt && acc.toInt ≤ 3

/-- What ESD gives: the new accumulator, the Step and the flag `oor` (42_encoder_step_detector.md R110). -/
structure Detection where
  acc : AccWord
  step : Step
  oor : Bool
  deriving DecidableEq, Repr

/-- The accumulator after an INVALID transition (R112). -/
def accAfterInvalid (p : InvalidAcc) (acc : AccWord) : AccWord :=
  match p with
  | .hold => acc
  | .clear => 0#4

/-- The tests on the sum `s`: full cycle forward (R114), full cycle backward (R115), mid-cycle (R116). -/
def detectSum (s : Int) : Detection :=
  if s = 4 then ⟨0#4, .right, false⟩
  else if s = -4 then ⟨0#4, .left, false⟩
  else ⟨BitVec.ofInt 4 s, .none, false⟩

/-- `ESD(ACC, e)` (R110), its cases in the order of R119: out of range (R111), INVALID (R112), the addition (R113) and its tests. -/
def detect (p : InvalidAcc) (acc : AccWord) (e : Entry) : Detection :=
  if accLegal acc then
    match entryVal? e with
    | none => ⟨accAfterInvalid p acc, .none, false⟩
    | some v => detectSum (acc.toInt + v)
  else ⟨0#4, .none, true⟩

/-- `inv`: the transition is INVALID (41_gray_state_machine.md R104). -/
def isInvalid (e : Entry) : Bool := e == .invalid

/-- TICKS after a SAMPLE whose step is `st` (R117). -/
def ticksAfter (w : Nat) (st : Step) (ticks : Nat) : Nat :=
  match st with
  | .none => ticks
  | .right | .left => wrapUnsigned w (ticks + 1)

/-- INVCNT after a SAMPLE whose `inv` is as given (R118). -/
def invcntAfter (w : Nat) (inv : Bool) (invcnt : Nat) : Nat :=
  if inv then wrapUnsigned w (invcnt + 1) else invcnt

/-- POS after APPLY(step) (43_position_counter.md R126): no-op on None. -/
def posAfter (w : Nat) (st : Step) (pos : Int) : Int :=
  match st with
  | .none => pos
  | .right | .left => wrapSigned w (pos + stepValue st)

/-- PUSH after a SAMPLE with raw level `sw`: two consecutive identical samples move it (R131). -/
def pushAfter (sw swlast push : Bool) : Bool := if sw = swlast then sw else push

/-- `pressed`: PUSH becomes PUSH_ACTIVE in this SAMPLE (R132). -/
def pressedNow (active push push' : Bool) : Bool := push != active && push' == active

end Sys2Proof.Machine
end

