-- ==== Sys2Proof/Machine/Ops.lean ====
section
/-! DEFINITION. The named operations over an instance and over the machine: INIT, SAMPLE from its index on, APPLY and IDLE on one instance;
the access to the instance an operation is for; the fetch of the next operation.

TAKING AN EXCEPTION: the block has no trap mechanism. "No operation raises, traps, aborts or fails" (60_exceptions.md R140); the two error
classes are reported by the flags `inv` and `oor` of the SAMPLE that met them, nothing is saved and nothing is entered (R146), so there is
no return either (R147). What a SAMPLE that meets a class does is `sampleDecoder`, whole. -/

namespace Sys2Proof.Machine

/-! ### One instance -/

/-- INIT(a, b) with button level `sw` (40_quadrature_decoder.md R92; POS: 43_position_counter.md R128; SWLAST, PUSH: R133). It reads no
register; a register that is absent is not written. -/
def initDecoder (c : Config) (a b sw : Bool) (x : Decoder) : Decoder where
  live := true
  gray := indexOf (pairCode a b) (pairCode a b)
  acc := 0#4
  ticks := 0
  invcnt := if c.hasInvcnt then 0 else x.invcnt
  pos := if c.hasPos then 0 else x.pos
  swlast := if c.hasPush then sw else x.swlast
  push := if c.hasPush then sw else x.push
  out := Output.quiet

/-- The outputs of a SAMPLE that forms the index `idx` with button level `sw` (R93, R104, R110, R132): a function of the registers before
it and of its inputs (10_state.md R28). -/
def sampleOutputs (c : Config) (idx : GrayIndex) (sw : Bool) (x : Decoder) : Output where
  step := (detect c.invalidAcc x.acc (lookup idx)).step
  inv := isInvalid (lookup idx)
  oor := (detect c.invalidAcc x.acc (lookup idx)).oor
  pressed := c.hasPush && pressedNow c.pushActive x.push (pushAfter sw x.swlast x.push)

/-- SAMPLE from its index on (R93): GRAY always (41_gray_state_machine.md R102), ACC by ESD, TICKS, INVCNT, POS by APPLY on its own step
(43_position_counter.md R127), SWLAST and PUSH (R131), all written together. -/
def sampleDecoder (c : Config) (idx : GrayIndex) (sw : Bool) (x : Decoder) : Decoder :=
  let out := sampleOutputs c idx sw x
  { x with
    gray := idx
    acc := (detect c.invalidAcc x.acc (lookup idx)).acc
    ticks := ticksAfter c.tickW out.step x.ticks
    invcnt := if c.hasInvcnt then invcntAfter c.invW out.inv x.invcnt else x.invcnt
    pos := if c.hasPos then posAfter c.posW out.step x.pos else x.pos
    swlast := if c.hasPush then sw else x.swlast
    push := if c.hasPush then pushAfter sw x.swlast x.push else x.push
    out := out }

/-- IDLE: no register is read or written; the outputs are None, 0, 0 (R94). -/
def idleDecoder (x : Decoder) : Decoder := { x with out := Output.quiet }

/-- APPLY(step) of the PositionCounter by itself (R126): POS and nothing else; it has no outputs (R125). -/
def applyDecoder (c : Config) (st : Step) (x : Decoder) : Decoder :=
  { x with pos := posAfter c.posW st x.pos }

/-! ### The instance an operation is for -/

/-- The instance the operation at hand is for. -/
def State.cur (s : State) : Option Decoder := s.insts[s.sel]?

/-- Writing that instance back; every other instance is untouched (40_quadrature_decoder.md R96). -/
def State.setCur (s : State) (x : Decoder) : State := { s with insts := s.insts.set s.sel x }

/-- The outputs that instance showed for its most recent operation. -/
def State.lastOutput (s : State) : Output :=
  match s.cur with
  | some x => x.out
  | none => Output.quiet

/-- An operation that every instance may take at any time: INIT and IDLE (R90, R95). -/
def onInstance (f : Config → Decoder → Decoder) (s : State) : Host.Outcome State Fault Refusal :=
  match s.cur with
  | none => .fault (.noSuchInstance s.sel)
  | some x => .next (s.setCur (f s.cfg x))

/-- An operation that has a meaning only after the first INIT (10_state.md R34), and then only when `bar` names no reason against it. -/
def onLive (bar : Config → Decoder → Option Refusal) (f : Config → Decoder → Decoder) (s : State) :
    Host.Outcome State Fault Refusal :=
  match s.cur with
  | none => .fault (.noSuchInstance s.sel)
  | some x =>
    if x.live then
      match bar s.cfg x with
      | some r => .refused r
      | none => .next (s.setCur (f s.cfg x))
    else .refused .beforeInit

/-- SAMPLE(a, b): the index is formed from the stored pair and the levels (R100). -/
def sampleOp (a b sw : Bool) (s : State) : Host.Outcome State Fault Refusal :=
  onLive (fun _ _ => none) (fun c x => sampleDecoder c (sampleIndex x.gray a b) sw x) s

/-- The case of SAMPLE at index `idx`: selected only when the stored pair is the index's previous pair (30_encoding.md R78). -/
def transitionOp (idx : GrayIndex) (sw : Bool) (s : State) : Host.Outcome State Fault Refusal :=
  onLive (fun _ x => if storedPair x.gray = earlierPair idx then none else some (.transitionNotSelected idx))
    (fun c x => sampleDecoder c idx sw x) s

/-- APPLY(step) by itself: the PositionCounter must be there (43_position_counter.md R125). -/
def applyOp (st : Step) (s : State) : Host.Outcome State Fault Refusal :=
  onLive (fun c _ => if c.hasPos then none else some .positionCounterAbsent) (fun c x => applyDecoder c st x) s

/-! ### The next operation -/

/-- What the fetch gives: an operation, and the machine it is to run on. -/
structure Fetched where
  instr : Instr
  state : State
  deriving DecidableEq, Repr

/-- The oldest operation issued is taken, in order (20_memory.md R66), and its instance selected; with none issued `sample` is not called,
which is IDLE (40_quadrature_decoder.md R91, 93_implementation_defined.md U10). -/
def fetch (s : State) : Host.Outcome Fetched Fault Refusal :=
  match s.inputs with
  | [] => .next ⟨.idle, s⟩
  | i :: rest =>
    match decode s.cfg.hasPush i.fmt i.word with
    | .error why => .refused (.undecodable why)
    | .ok op => .next ⟨op, { s with inputs := rest, sel := i.inst }⟩

/-- An operation as the environment issues it: its canonical word, for instance `k`. -/
def inputOf (k : Nat) (i : Instr) : Input := ⟨k, (encode i).1, (encode i).2⟩

/-- The environment issues the operations `ops` to instance `k`, after what it has issued before. -/
def State.issue (k : Nat) (ops : List Instr) (s : State) : State :=
  { s with inputs := s.inputs ++ ops.map (inputOf k) }

/-- A bare table word, issued so that it is the next operation taken (formats: `formatOfBits`). -/
def issueWord (nbits w : Nat) (s : State) : State :=
  { s with inputs := ⟨s.sel, formatOfBits nbits, byteOfWord w⟩ :: s.inputs }

end Sys2Proof.Machine
end

