-- ==== Sys2Proof/Machine/Operations.lean ====
section
/-! DEFINITION. The operations of format OP (spec/40_quadrature_decoder.md): INIT, SAMPLE, IDLE. -/

namespace Sys2Proof.Machine

/-- INIT(a, b) (R92): from any state, also before the first INIT. -/
def execInit (a b sw : Bool) (s : State) : Host.Outcome State Fault Refusal :=
  onInstance (fun c x => initDecoder c a b sw x) s

/-- SAMPLE(a, b) (R93). -/
def execSample (a b sw : Bool) (s : State) : Host.Outcome State Fault Refusal := sampleOp a b sw s

/-- IDLE (R94). -/
def execIdle (s : State) : Host.Outcome State Fault Refusal := onInstance (fun _ x => idleDecoder x) s

end Sys2Proof.Machine
end

