-- ==== Sys2Proof/Machine/Position.lean ====
section
/-! DEFINITION. APPLY of the PositionCounter by itself (43_position_counter.md R126), for each Step (30_encoding.md R83;
notes/assumptions/10.md). -/

namespace Sys2Proof.Machine

/-- APPLY(None): no-op (R126). -/
def execApplyNone (s : State) : Host.Outcome State Fault Refusal := applyOp .none s

/-- APPLY(Right): increments (R126). -/
def execApplyRight (s : State) : Host.Outcome State Fault Refusal := applyOp .right s

/-- APPLY(Left): decrements (R126). -/
def execApplyLeft (s : State) : Host.Outcome State Fault Refusal := applyOp .left s

end Sys2Proof.Machine
end

