-- ==== Sys2Proof/Machine/Transitions.lean ====
section
/-! DEFINITION. The sixteen cases of SAMPLE (30_encoding.md R78), one for each Gray index, with the entry 20_memory.md gives it
(notes/assumptions/9.md). -/

namespace Sys2Proof.Machine

/-- T.STAY.0: (0,0) -> (0,0), entry 0 (R44). -/
def execTStay0 (sw : Bool) (s : State) : Host.Outcome State Fault Refusal := transitionOp 0b0000#4 sw s

/-- T.BWD.1: (0,0) -> (0,1), entry -1 (R45). -/
def execTBwd1 (sw : Bool) (s : State) : Host.Outcome State Fault Refusal := transitionOp 0b0001#4 sw s

/-- T.FWD.2: (0,0) -> (1,0), entry +1 (R46). -/
def execTFwd2 (sw : Bool) (s : State) : Host.Outcome State Fault Refusal := transitionOp 0b0010#4 sw s

/-- T.INV.3: (0,0) -> (1,1), entry INVALID (R47). -/
def execTInv3 (sw : Bool) (s : State) : Host.Outcome State Fault Refusal := transitionOp 0b0011#4 sw s

/-- T.FWD.4: (0,1) -> (0,0), entry +1 (R48). -/
def execTFwd4 (sw : Bool) (s : State) : Host.Outcome State Fault Refusal := transitionOp 0b0100#4 sw s

/-- T.STAY.5: (0,1) -> (0,1), entry 0 (R49). -/
def execTStay5 (sw : Bool) (s : State) : Host.Outcome State Fault Refusal := transitionOp 0b0101#4 sw s

/-- T.INV.6: (0,1) -> (1,0), entry INVALID (R50). -/
def execTInv6 (sw : Bool) (s : State) : Host.Outcome State Fault Refusal := transitionOp 0b0110#4 sw s

/-- T.BWD.7: (0,1) -> (1,1), entry -1 (R51). -/
def execTBwd7 (sw : Bool) (s : State) : Host.Outcome State Fault Refusal := transitionOp 0b0111#4 sw s

/-- T.BWD.8: (1,0) -> (0,0), entry -1 (R52). -/
def execTBwd8 (sw : Bool) (s : State) : Host.Outcome State Fault Refusal := transitionOp 0b1000#4 sw s

/-- T.INV.9: (1,0) -> (0,1), entry INVALID (R53). -/
def execTInv9 (sw : Bool) (s : State) : Host.Outcome State Fault Refusal := transitionOp 0b1001#4 sw s

/-- T.STAY.10: (1,0) -> (1,0), entry 0 (R54). -/
def execTStay10 (sw : Bool) (s : State) : Host.Outcome State Fault Refusal := transitionOp 0b1010#4 sw s

/-- T.FWD.11: (1,0) -> (1,1), entry +1 (R55). -/
def execTFwd11 (sw : Bool) (s : State) : Host.Outcome State Fault Refusal := transitionOp 0b1011#4 sw s

/-- T.INV.12: (1,1) -> (0,0), entry INVALID (R56). -/
def execTInv12 (sw : Bool) (s : State) : Host.Outcome State Fault Refusal := transitionOp 0b1100#4 sw s

/-- T.FWD.13: (1,1) -> (0,1), entry +1 (R57). -/
def execTFwd13 (sw : Bool) (s : State) : Host.Outcome State Fault Refusal := transitionOp 0b1101#4 sw s

/-- T.BWD.14: (1,1) -> (1,0), entry -1 (R58). -/
def execTBwd14 (sw : Bool) (s : State) : Host.Outcome State Fault Refusal := transitionOp 0b1110#4 sw s

/-- T.STAY.15: (1,1) -> (1,1), entry 0 (R59). -/
def execTStay15 (sw : Bool) (s : State) : Host.Outcome State Fault Refusal := transitionOp 0b1111#4 sw s

end Sys2Proof.Machine
end

