-- ==== Sys2Proof/Machine/Dispatch.lean ====
section
/-! DEFINITION. The meaning of every operation: one arm for each constructor of `Instr`. -/

namespace Sys2Proof.Machine

def exec (i : Instr) (s : State) : Host.Outcome State Fault Refusal :=
  match i with
  | .init a b sw => Sys2Proof.Machine.execInit a b sw s
  | .sample a b sw => Sys2Proof.Machine.execSample a b sw s
  | .idle => Sys2Proof.Machine.execIdle s
  | .tStay0 sw => Sys2Proof.Machine.execTStay0 sw s
  | .tBwd1 sw => Sys2Proof.Machine.execTBwd1 sw s
  | .tFwd2 sw => Sys2Proof.Machine.execTFwd2 sw s
  | .tInv3 sw => Sys2Proof.Machine.execTInv3 sw s
  | .tFwd4 sw => Sys2Proof.Machine.execTFwd4 sw s
  | .tStay5 sw => Sys2Proof.Machine.execTStay5 sw s
  | .tInv6 sw => Sys2Proof.Machine.execTInv6 sw s
  | .tBwd7 sw => Sys2Proof.Machine.execTBwd7 sw s
  | .tBwd8 sw => Sys2Proof.Machine.execTBwd8 sw s
  | .tInv9 sw => Sys2Proof.Machine.execTInv9 sw s
  | .tStay10 sw => Sys2Proof.Machine.execTStay10 sw s
  | .tFwd11 sw => Sys2Proof.Machine.execTFwd11 sw s
  | .tInv12 sw => Sys2Proof.Machine.execTInv12 sw s
  | .tFwd13 sw => Sys2Proof.Machine.execTFwd13 sw s
  | .tBwd14 sw => Sys2Proof.Machine.execTBwd14 sw s
  | .tStay15 sw => Sys2Proof.Machine.execTStay15 sw s
  | .applyNone => Sys2Proof.Machine.execApplyNone s
  | .applyRight => Sys2Proof.Machine.execApplyRight s
  | .applyLeft => Sys2Proof.Machine.execApplyLeft s

end Sys2Proof.Machine
end

