-- ==== Sys2Proof/Machine/Step.lean ====
section
/-! DEFINITION. One step of the machine: the next operation the environment issued is taken and performed, whole (20_memory.md R64, R66). -/

namespace Sys2Proof.Machine

/-- One step. -/
def step (s : State) : Host.Outcome State Fault Refusal :=
  match fetch s with
  | .next f => exec f.instr f.state
  | .fault r => .fault r
  | .refused r => .refused r

/-- The state whose next step takes the operation with the bits `w` (notes/assumptions/1.md, notes/assumptions/11.md). -/
def State.withFetchWord (s : State) (nbits w : Nat) : State := issueWord nbits w s

end Sys2Proof.Machine
end

