-- ==== Sys2Proof/Machine/Listing.lean ====
section
/-! DEFINITION. Listings (spec/30_encoding.md R81) and their pseudo-operations (R82), which depend on the pair stored when the line is
reached. A listing gives no button level: the model writes 0 (notes/assumptions/12.md). -/

namespace Sys2Proof.Machine

/-- The pair after `p` in the forward cycle 0 -> 2 -> 3 -> 1 -> 0 (20_memory.md R42). -/
def forwardPair (p : Pair) : Pair :=
  if p = 0#2 then 2#2 else if p = 2#2 then 3#2 else if p = 3#2 then 1#2 else 0#2

/-- The pair after `p` in the backward cycle 0 -> 1 -> 3 -> 2 -> 0 (20_memory.md R43). -/
def backwardPair (p : Pair) : Pair :=
  if p = 0#2 then 1#2 else if p = 1#2 then 3#2 else if p = 3#2 then 2#2 else 0#2

/-- The pair that differs from `p` in both bits, code `3 - p` (R82). -/
def jumpPair (p : Pair) : Pair := 3#2 - p

/-- SAMPLE of a pair. -/
def samplePair (p : Pair) : Instr := .sample (pairLevels p).1 (pairLevels p).2 false

/-- The operation a line stands for when the stored pair is `p` (R81, R82). -/
def lineOp (p : Pair) : Line → Instr
  | .init a b => .init a b false
  | .s a b => .sample a b false
  | .idle => .idle
  | .fwd => samplePair (forwardPair p)
  | .bwd => samplePair (backwardPair p)
  | .same => samplePair p
  | .jump => samplePair (jumpPair p)

/-- The stored pair after a line. -/
def linePair (p : Pair) : Line → Pair
  | .init a b => pairCode a b
  | .s a b => pairCode a b
  | .idle => p
  | .fwd => forwardPair p
  | .bwd => backwardPair p
  | .same => p
  | .jump => jumpPair p

/-- A listing, read top to bottom, as operations; `p` is the pair stored when it is reached (R81). -/
def assemble (p : Pair) : List Line → List Instr
  | [] => []
  | l :: rest => lineOp p l :: assemble (linePair p l) rest

end Sys2Proof.Machine
end

