-- ==== Sys2Proof/Machine/Ports.lean ====
section
/-! DEFINITION. The port-level form (spec/30_encoding.md R76): the register outputs, the codes of the operation outputs, and the clock edge.
Nothing in it depends on the period of the clock (notes/assumptions/17.md). -/

namespace Sys2Proof.Machine

/-- What the owner of an instance sees of its registers between operations; an absent register is not there (10_state.md R32). -/
structure RegisterView where
  gray : GrayIndex
  acc : AccWord
  ticks : Nat
  invcnt : Option Nat
  pos : Option Int
  swlast : Option Bool
  push : Option Bool
  deriving DecidableEq, Repr

/-- The register outputs of an instance (R32). -/
def Decoder.view (c : Config) (x : Decoder) : RegisterView where
  gray := x.gray
  acc := x.acc
  ticks := x.ticks
  invcnt := if c.hasInvcnt then some x.invcnt else none
  pos := if c.hasPos then some x.pos else none
  swlast := if c.hasPush then some x.swlast else none
  push := if c.hasPush then some x.push else none

/-- TICKS as a word of TICK_W bits (R25). -/
def Decoder.ticksWord (c : Config) (x : Decoder) : BitVec c.tickW := BitVec.ofNat c.tickW x.ticks

/-- INVCNT as a word of INV_W bits (R26). -/
def Decoder.invcntWord (c : Config) (x : Decoder) : BitVec c.invW := BitVec.ofNat c.invW x.invcnt

/-- POS as a two's complement word of POS_W bits (R29). -/
def Decoder.posWord (c : Config) (x : Decoder) : BitVec c.posW := BitVec.ofInt c.posW x.pos

/-- The status code `{oor, inv}` (30_encoding.md R74). -/
def Output.status (o : Output) : BitVec 2 := (BitVec.ofBool o.oor ++ BitVec.ofBool o.inv : BitVec 2)

/-- The output word `{oor, inv, step[1:0]}` (R84). -/
def Output.word (o : Output) : BitVec 4 := (o.status ++ o.step.code : BitVec 4)

/-- The outputs shown before the clock edge: combinational in the registers and the pins (R76). -/
def pinOutputs (c : Config) (rst en a b sw : Bool) (x : Decoder) : Output :=
  if rst then Output.quiet
  else if en then sampleOutputs c (sampleIndex x.gray a b) sw x
  else Output.quiet

/-- A rising clock edge: the operation the pins select (R76, R77). -/
def clockEdge (rst en a b sw : Bool) (s : State) : Host.Outcome State Fault Refusal :=
  exec (opOfLevels rst en a b sw) s

end Sys2Proof.Machine
end

