-- ==== Sys2Proof/WellFormed.lean ====
section
/-! DEFINITION. What makes an operation, a configuration and a run well formed. -/

namespace Sys2Proof

/-- The raw button level an operation carries, where it carries one (43_position_counter.md R130). -/
def Instr.buttonLevel : Instr → Option Bool
  | .init _ _ sw | .sample _ _ sw => some sw
  | .tStay0 sw | .tStay5 sw | .tStay10 sw | .tStay15 sw => some sw
  | .tFwd2 sw | .tFwd4 sw | .tFwd11 sw | .tFwd13 sw => some sw
  | .tBwd1 sw | .tBwd7 sw | .tBwd8 sw | .tBwd14 sw => some sw
  | .tInv3 sw | .tInv6 sw | .tInv9 sw | .tInv12 sw => some sw
  | .idle | .applyNone | .applyRight | .applyLeft => none

/-- With HAS_PUSH = 0 the input word has no bit for the button level (30_encoding.md R75), so an operation that carries level 1 has no
word: the level is written 0 there. -/
def Instr.wf (hasPush : Bool) (i : Instr) : Bool :=
  hasPush || i.buttonLevel != some true

/-- Every register that exists has at least one bit (R9). -/
def Config.wf (c : Config) : Bool :=
  c.tickW != 0 && c.invW != 0 && c.posW != 0

/-- A run begins with an INIT (00_scope.md R13, 10_state.md R34, 70_reset_and_hazards.md R164). -/
def runWf : List Instr → Bool
  | .init _ _ _ :: _ => true
  | _ => false

end Sys2Proof
end

