-- ==== Sys2Proof/Safety.lean ====
section
/-! DEFINITION. What claims about the machine are stated in: runs, the invariant, frames, and the edges along a path of pairs. -/

namespace Sys2Proof.Machine

/-! ### Runs -/

/-- The operations of a list, one after the other, on the instance selected: the state after the last, and the outputs each one showed
(00_scope.md R13). No result when one of them stops. DESIGN CHOICE, safe: an APPLY by itself has no outputs (43_position_counter.md R125) and
the spec does not say what it adds to the outputs of a run; the list has an element for every operation, and for an APPLY it is the
outputs its instance last showed, so those stand in it again (notes/assumptions/8.md). -/
def runOps : List Instr → State → Option (State × List Output)
  | [], s => some (s, [])
  | i :: rest, s =>
    match exec i s with
    | .next t => (runOps rest t).map fun r => (r.1, t.lastOutput :: r.2)
    | .fault _ => none
    | .refused _ => none

/-- SAMPLEs of a list of pairs of levels, with the button line at 0. -/
def sampleOps (levels : List (Bool × Bool)) : List Instr := levels.map fun l => .sample l.1 l.2 false

/-- How many of the outputs show the step `st`. -/
def countSteps (st : Step) (os : List Output) : Nat := os.countP fun o => o.step == st

/-- The table entries of the transitions along a path of samples that begins at the stored pair `p` (40_quadrature_decoder.md R99). -/
def entriesAlong (p : Pair) : List (Bool × Bool) → List Entry
  | [] => []
  | l :: rest => lookup (indexOf p (pairCode l.1 l.2)) :: entriesAlong (pairCode l.1 l.2) rest

/-- How many entries of a path are `e`. -/
def countEntries (e : Entry) (es : List Entry) : Nat := es.countP fun f => f == e

/-! ### The invariant -/

/-- The values of the counters lie in their widths (00_scope.md R9, R15). -/
abbrev Decoder.inWidth (c : Config) (x : Decoder) : Prop :=
  x.ticks < 2 ^ c.tickW ∧ x.invcnt < 2 ^ c.invW ∧ -2 ^ c.posW ≤ 2 * x.pos ∧ 2 * x.pos < 2 ^ c.posW

/-- After the first INIT: ACC is in {-3, ..., +3} and OutOfRangeAccumulator was not reported (42_encoder_step_detector.md R120); a step was
emitted only with ACC at 0 and no class reported (R24, 60_exceptions.md R145); a reported InvalidTransition is the one GRAY holds
(60_exceptions.md R141). -/
abbrev Decoder.inCycle (x : Decoder) : Prop :=
  (-3 ≤ x.acc.toInt ∧ x.acc.toInt ≤ 3) ∧ x.out.oor = false ∧
  (x.out.step ≠ .none → x.acc = 0#4 ∧ x.out.inv = false) ∧
  (x.out.inv = true → lookup x.gray = .invalid)

/-- The invariant of the machine. -/
abbrev State.Inv (s : State) : Prop :=
  ∀ x ∈ s.insts, Decoder.inWidth s.cfg x ∧ (x.live = true → Decoder.inCycle x)

/-! ### Frames -/

/-- Everything outside the instance selected is as before; an instance before its first INIT too (notes/assumptions/19.md). -/
def OthersKept (s t : State) : Prop :=
  t.cfg = s.cfg ∧ t.sel = s.sel ∧ t.inputs = s.inputs ∧ t.insts.length = s.insts.length ∧
  ∀ k, k ≠ s.sel → t.insts[k]? = s.insts[k]?

/-- The registers that the configuration leaves out are as before (10_state.md R26, R29, R30). -/
def AbsentKept (c : Config) (x y : Decoder) : Prop :=
  (c.hasInvcnt = false → y.invcnt = x.invcnt) ∧ (c.hasPos = false → y.pos = x.pos) ∧
  (c.hasPush = false → y.swlast = x.swlast ∧ y.push = x.push)

/-- The registers of the push-button companion are as before. -/
def PushKept (x y : Decoder) : Prop := y.swlast = x.swlast ∧ y.push = x.push

/-- A state without what its instances last showed: the registers alone. -/
def State.withoutOutputs (s : State) : State :=
  { s with insts := s.insts.map fun x => { x with out := Output.quiet } }

/-! ### Symmetry -/

/-- A pair with the roles of A and B exchanged (20_memory.md R61). -/
def swapPair (p : Pair) : Pair := pairCode (p.getLsbD 0) (p.getLsbD 1)

/-- Right and Left exchanged. -/
def negStep : Step → Step
  | .none => .none
  | .right => .left
  | .left => .right

/-- `neg` of an entry (R61). -/
def negEntry : Entry → Entry
  | .zero => .zero
  | .plus => .minus
  | .minus => .plus
  | .invalid => .invalid

end Sys2Proof.Machine
end

