-- ==== Sys2Proof/Certificates/Slice0/Obligations.lean ====
section
/-! DEFINITION. The statements for the provers. `s`, `t` are the machine before and after, `x`, `y` the instance the operation is for.
A statement whose docstring names a decision D<n> or a log entry rests on that choice of the spec or of the model. -/

open Sys2Proof Sys2Proof.Machine

/-! ### Reset, INIT, IDLE -/

/-- After reset every register of every instance has its value of the table of 10_state.md section 8, for every configuration and
every levels of the lines (spec's decisions D3, D13 to D16, D29). -/
def Obligations.ResetLeavesTheRegistersOfInit : Prop :=
  ∀ (c : Config) (lines : List Levels) (k : Nat) (l : Levels), lines[k]? = some l →
    ∃ x, (State.resetFor c lines).insts[k]? = some x ∧
      x.gray.getLsbD 3 = l.a ∧ x.gray.getLsbD 2 = l.b ∧ x.gray.getLsbD 1 = l.a ∧ x.gray.getLsbD 0 = l.b ∧
      x.acc = 0#4 ∧ x.ticks = 0 ∧ (c.hasInvcnt = true → x.invcnt = 0) ∧ (c.hasPos = true → x.pos = 0) ∧
      (c.hasPush = true → x.swlast = l.sw ∧ x.push = l.sw) ∧
      x.out.step = .none ∧ x.out.inv = false ∧ x.out.oor = false ∧ x.out.pressed = false

/-- The invariant holds after reset, of every configuration and of the specified hardware (State.reset: notes/assumptions/2.md). -/
def Obligations.ResetMeetsTheInvariant : Prop :=
  (∀ (c : Config) (lines : List Levels), (State.resetFor c lines).Inv) ∧ State.reset.Inv

/-- INIT(a, b) goes on from every state of its instance, also before the first INIT, and gives the reset registers; absent registers and
everything outside the instance stay (40_quadrature_decoder.md section 2; the spec's decisions D3, D13 to D16, D29; absent registers:
notes/assumptions/7.md). -/
def Obligations.InitGivesTheResetRegisters : Prop :=
  ∀ (s : State) (x : Decoder) (a b sw : Bool), s.cur = some x →
    ∃ t y, exec (.init a b sw) s = .next t ∧ t.cur = some y ∧ OthersKept s t ∧ AbsentKept s.cfg x y ∧
      y.live = true ∧ y.gray.toNat = 5 * (2 * a.toNat + b.toNat) ∧ y.acc = 0#4 ∧ y.ticks = 0 ∧
      (s.cfg.hasInvcnt = true → y.invcnt = 0) ∧ (s.cfg.hasPos = true → y.pos = 0) ∧
      (s.cfg.hasPush = true → y.swlast = sw ∧ y.push = sw) ∧ y.out = ⟨.none, false, false, false⟩

/-- INIT reads no register: it gives the same registers and outputs from any two earlier states of the instance
(40_quadrature_decoder.md section 2). -/
def Obligations.InitForgetsTheEarlierState : Prop :=
  ∀ (s s' : State) (x x' : Decoder) (a b sw : Bool), s'.cfg = s.cfg → s.cur = some x → s'.cur = some x' →
    ∃ t t' y y', exec (.init a b sw) s = .next t ∧ exec (.init a b sw) s' = .next t' ∧
      t.cur = some y ∧ t'.cur = some y' ∧ y.view s.cfg = y'.view s.cfg ∧ y.out = y'.out ∧ y.live = y'.live

/-- IDLE goes on from every state, changes no register and shows None, 0, 0 (40_quadrature_decoder.md section 4, decisions D2, D29; that
the shown outputs are a field: notes/assumptions/8.md). That an instance before its first INIT keeps one value in each register, though two looks
at it need not agree, is the model's choice (notes/assumptions/19.md). -/
def Obligations.IdleChangesNoRegister : Prop :=
  ∀ (s : State) (x : Decoder), s.cur = some x →
    ∃ t, exec .idle s = .next t ∧ OthersKept s t ∧ t.cur = some { x with out := ⟨.none, false, false, false⟩ }

/-! ### SAMPLE: the Gray state machine -/

/-- Every SAMPLE forms `{GRAY[1:0], a, b}` and writes it to GRAY, whatever the entry is and whatever ACC holds (R100, R102). -/
def Obligations.SampleStoresTheIndexItForms : Prop :=
  ∀ (s : State) (x : Decoder) (a b sw : Bool), s.cur = some x → x.live = true →
    ∃ t y, exec (.sample a b sw) s = .next t ∧ t.cur = some y ∧
      y.gray.toNat = x.gray.toNat % 4 * 4 + 2 * a.toNat + b.toNat ∧
      y.gray.getLsbD 1 = a ∧ y.gray.getLsbD 0 = b

/-- GRAY as a machine of sixteen states (41_gray_state_machine.md, The state machine): SAMPLE goes to `{GRAY[1:0], a, b}` and hands the
entry of the table at that index to the step detector, IDLE stays, INIT goes to `{a, b, a, b}`, and the four successors of a stored pair are
one stay, one forward edge, one backward edge and one INVALID transition. (That IDLE leaves GRAY before the first INIT too, where the spec
leaves two looks open, is the model's choice, notes/assumptions/19.md.) -/
def Obligations.GrayIsASixteenStateMachine : Prop :=
  (∀ (s : State) (x : Decoder) (a b sw : Bool), s.cur = some x → x.live = true →
    ∃ t y, exec (.sample a b sw) s = .next t ∧ t.cur = some y ∧
      y.gray = (x.gray.extractLsb' 0 2 ++ (BitVec.ofBool a ++ BitVec.ofBool b) : BitVec 4) ∧
      (⟨y.acc, y.out.step, y.out.oor⟩ : Detection) = detect s.cfg.invalidAcc x.acc (lookup y.gray)) ∧
  (∀ (s : State) (x : Decoder), s.cur = some x →
    ∃ t y, exec .idle s = .next t ∧ t.cur = some y ∧ y.gray = x.gray) ∧
  (∀ (s : State) (x : Decoder) (a b sw : Bool), s.cur = some x →
    ∃ t y, exec (.init a b sw) s = .next t ∧ t.cur = some y ∧
      y.gray = (BitVec.ofBool a ++ BitVec.ofBool b ++ BitVec.ofBool a ++ BitVec.ofBool b : BitVec 4)) ∧
  (∀ p : Pair, ([0#2, 1#2, 2#2, 3#2].map fun c => lookup (indexOf p c)).Perm [.zero, .plus, .minus, .invalid])

/-- InvalidTransition (60_exceptions.md section 1; `inv` by decision D12, ACC by D9, TICKS by D13, INVCNT by D14, POS by D15): reported by a
SAMPLE exactly when both levels differ from the stored pair, that is at the indices 3, 6, 9, 12; what it does to the registers; INIT and
IDLE report nothing. The effect on ACC is that of an ACC in range. (An instance before its first INIT beside it is kept too:
notes/assumptions/19.md.) -/
def Obligations.InvalidTransitionIsReportedAndAbsorbed : Prop :=
  (∀ (s : State) (x : Decoder) (a b sw : Bool), s.cur = some x → x.live = true →
    ∃ t y, exec (.sample a b sw) s = .next t ∧ t.cur = some y ∧ OthersKept s t ∧
      (y.out.inv = true ↔ x.gray.getLsbD 1 ≠ a ∧ x.gray.getLsbD 0 ≠ b) ∧
      (y.out.inv = true ↔ y.gray ∈ [3#4, 6#4, 9#4, 12#4]) ∧
      y.out.status.getLsbD 0 = y.out.inv ∧
      (y.out.inv = true →
        earlierPair y.gray = storedPair x.gray ∧ storedPair y.gray = pairCode a b ∧
        y.out.step = .none ∧ y.ticks = x.ticks ∧ y.pos = x.pos ∧
        (s.cfg.hasInvcnt = true → y.invcnt = (x.invcnt + 1) % 2 ^ s.cfg.invW) ∧
        (-3 ≤ x.acc.toInt → x.acc.toInt ≤ 3 → s.cfg.invalidAcc = .hold → y.acc = x.acc) ∧
        (-3 ≤ x.acc.toInt → x.acc.toInt ≤ 3 → s.cfg.invalidAcc = .clear → y.acc = 0#4))) ∧
  (∀ (s : State) (x : Decoder) (a b sw : Bool), s.cur = some x →
    (∃ t y, exec (.init a b sw) s = .next t ∧ t.cur = some y ∧ y.out.inv = false) ∧
    (∃ t y, exec .idle s = .next t ∧ t.cur = some y ∧ y.out.inv = false))

/-! ### SAMPLE: the step detector -/

/-- OutOfRangeAccumulator: a SAMPLE that finds ACC outside {-3, ..., +3} clears it, emits nothing, discards the contribution and says so;
GRAY is updated as always, and `inv` follows the entry alone. In range it is not reported (42_encoder_step_detector.md section 2, decision
D8; the flags by D12, TICKS by D13, POS by D15; 60_exceptions.md section 1). -/
def Obligations.OutOfRangeAccumulatorIsCleared : Prop :=
  ∀ (s : State) (x : Decoder) (a b sw : Bool), s.cur = some x → x.live = true →
    ∃ t y, exec (.sample a b sw) s = .next t ∧ t.cur = some y ∧ OthersKept s t ∧
      (y.out.oor = true ↔ x.acc.toInt < -3 ∨ 3 < x.acc.toInt) ∧
      y.out.status.getLsbD 1 = y.out.oor ∧
      (y.out.oor = true →
        y.acc = 0#4 ∧ y.out.step = .none ∧ y.ticks = x.ticks ∧ y.pos = x.pos ∧
        y.gray.toNat = x.gray.toNat % 4 * 4 + 2 * a.toNat + b.toNat ∧
        (y.out.inv = true ↔ lookup y.gray = .invalid))

/-- The addition (42_encoder_step_detector.md section 2; decision D7 for the sum 0): with ACC in range and a numeric entry the sum is the
integer ACC + val(e), in {-4, ..., +4}; in four bits, with the contribution sign-extended from its code, it is exact; exactly one of the
three tests applies to it, and the SAMPLE does what that test says: where no full cycle is completed, ACC takes the sum. -/
def Obligations.ContributionAddsWithoutOverflow : Prop :=
  ∀ (s : State) (x : Decoder) (a b sw : Bool) (v : Int), s.cur = some x → x.live = true →
    -3 ≤ x.acc.toInt → x.acc.toInt ≤ 3 → entryVal? (lookup (sampleIndex x.gray a b)) = some v →
    (-4 ≤ x.acc.toInt + v ∧ x.acc.toInt + v ≤ 4 ∧
      (x.acc + (entryCode (lookup (sampleIndex x.gray a b))).signExtend 4).toInt =
        x.acc.toInt + v) ∧
    ((x.acc.toInt + v = 4 ∧ ¬ x.acc.toInt + v = -4 ∧ ¬ (-3 ≤ x.acc.toInt + v ∧ x.acc.toInt + v ≤ 3)) ∨
     (¬ x.acc.toInt + v = 4 ∧ x.acc.toInt + v = -4 ∧ ¬ (-3 ≤ x.acc.toInt + v ∧ x.acc.toInt + v ≤ 3)) ∨
     (¬ x.acc.toInt + v = 4 ∧ ¬ x.acc.toInt + v = -4 ∧ -3 ≤ x.acc.toInt + v ∧ x.acc.toInt + v ≤ 3)) ∧
    ∃ t y, exec (.sample a b sw) s = .next t ∧ t.cur = some y ∧ OthersKept s t ∧ y.out.oor = false ∧
      (x.acc.toInt + v = 4 → y.acc = 0#4 ∧ y.out.step = .right) ∧
      (x.acc.toInt + v = -4 → y.acc = 0#4 ∧ y.out.step = .left) ∧
      (-3 ≤ x.acc.toInt + v → x.acc.toInt + v ≤ 3 →
        y.acc = x.acc + (entryCode (lookup (sampleIndex x.gray a b))).signExtend 4 ∧ y.out.step = .none)

/-- Full cycle forward (42_encoder_step_detector.md section 2): the sum is +4, only from ACC = +3 with entry +1; ACC becomes 0 and the step is
Right. (An instance before its first INIT beside it is kept too: notes/assumptions/19.md.) -/
def Obligations.ForwardFullCycleEmitsRight : Prop :=
  ∀ (s : State) (x : Decoder) (a b sw : Bool) (v : Int), s.cur = some x → x.live = true →
    -3 ≤ x.acc.toInt → x.acc.toInt ≤ 3 → entryVal? (lookup (sampleIndex x.gray a b)) = some v →
    x.acc.toInt + v = 4 →
    (x.acc.toInt = 3 ∧ lookup (sampleIndex x.gray a b) = .plus) ∧
    ∃ t y, exec (.sample a b sw) s = .next t ∧ t.cur = some y ∧ OthersKept s t ∧
      y.acc = 0#4 ∧ y.out.step = .right ∧ y.out.oor = false

/-- Full cycle backward (42_encoder_step_detector.md section 2): the sum is -4, only from ACC = -3 with entry -1; ACC becomes 0 and the step is
Left. (An instance before its first INIT beside it is kept too: notes/assumptions/19.md.) -/
def Obligations.BackwardFullCycleEmitsLeft : Prop :=
  ∀ (s : State) (x : Decoder) (a b sw : Bool) (v : Int), s.cur = some x → x.live = true →
    -3 ≤ x.acc.toInt → x.acc.toInt ≤ 3 → entryVal? (lookup (sampleIndex x.gray a b)) = some v →
    x.acc.toInt + v = -4 →
    (x.acc.toInt = -3 ∧ lookup (sampleIndex x.gray a b) = .minus) ∧
    ∃ t y, exec (.sample a b sw) s = .next t ∧ t.cur = some y ∧ OthersKept s t ∧
      y.acc = 0#4 ∧ y.out.step = .left ∧ y.out.oor = false

/-- Mid-cycle: a sum in {-3, ..., +3} is kept and nothing is emitted, also when it is 0 (42_encoder_step_detector.md section 2, decision D7
for the sum 0; TICKS: section 3 there, D13; POS: 43_position_counter.md section 1, D15). -/
def Obligations.MidCycleSumIsKept : Prop :=
  ∀ (s : State) (x : Decoder) (a b sw : Bool) (v : Int), s.cur = some x → x.live = true →
    -3 ≤ x.acc.toInt → x.acc.toInt ≤ 3 → entryVal? (lookup (sampleIndex x.gray a b)) = some v →
    -3 ≤ x.acc.toInt + v → x.acc.toInt + v ≤ 3 →
    ∃ t y, exec (.sample a b sw) s = .next t ∧ t.cur = some y ∧ OthersKept s t ∧
      y.acc.toInt = x.acc.toInt + v ∧ y.out.step = .none ∧ y.out.oor = false ∧ y.ticks = x.ticks ∧ y.pos = x.pos

/-- A SAMPLE never reports a class together with a step, Right and Left exclude each other by type, and after a SAMPLE ACC is in
{-3, ..., +3}, at 0 after a step, whatever it was before (60_exceptions.md section 3; 42_encoder_step_detector.md section 4). -/
def Obligations.ClassesAndStepsExcludeEachOther : Prop :=
  ∀ (s t : State) (y : Decoder) (a b sw : Bool), exec (.sample a b sw) s = .next t → t.cur = some y →
    (y.out.step ≠ .none → y.out.inv = false ∧ y.out.oor = false ∧ y.acc = 0#4) ∧
    -3 ≤ y.acc.toInt ∧ y.acc.toInt ≤ 3

/-! ### SAMPLE: the counters, the position, the button -/

/-- TICKS counts the emitted steps modulo 2^TICK_W (42_encoder_step_detector.md section 3, decision D13). -/
def Obligations.TicksCountEmittedSteps : Prop :=
  ∀ (s : State) (x : Decoder) (a b sw : Bool), s.cur = some x → x.live = true →
    ∃ t y, exec (.sample a b sw) s = .next t ∧ t.cur = some y ∧ OthersKept s t ∧
      (y.out.step = .none → y.ticks = x.ticks) ∧
      (y.out.step ≠ .none → y.ticks = (x.ticks + 1) % 2 ^ s.cfg.tickW)

/-- INVCNT, when present, counts the INVALID transitions modulo 2^INV_W and nothing else; when absent its field stays
(42_encoder_step_detector.md section 3, decision D14; notes/assumptions/7.md). -/
def Obligations.InvcntCountsInvalidTransitions : Prop :=
  ∀ (s : State) (x : Decoder) (a b sw : Bool), s.cur = some x → x.live = true →
    ∃ t y, exec (.sample a b sw) s = .next t ∧ t.cur = some y ∧ OthersKept s t ∧
      (s.cfg.hasInvcnt = true → y.out.inv = true → y.invcnt = (x.invcnt + 1) % 2 ^ s.cfg.invW) ∧
      (s.cfg.hasInvcnt = true → y.out.inv = false → y.invcnt = x.invcnt) ∧
      (s.cfg.hasInvcnt = false → y.invcnt = x.invcnt)

/-- Every SAMPLE performs APPLY on its own step: POS as a word of POS_W bits moves by the step, and stays in range
(43_position_counter.md section 1, decision D15). That the field stays without a PositionCounter is the model's choice
(notes/assumptions/7.md). -/
def Obligations.PositionFollowsTheStep : Prop :=
  ∀ (s : State) (x : Decoder) (a b sw : Bool), s.cur = some x → x.live = true →
    ∃ t y, exec (.sample a b sw) s = .next t ∧ t.cur = some y ∧ OthersKept s t ∧
      (s.cfg.hasPos = true → y.out.step = .right →
        y.posWord s.cfg = x.posWord s.cfg + 1 ∧ -2 ^ s.cfg.posW ≤ 2 * y.pos ∧ 2 * y.pos < 2 ^ s.cfg.posW) ∧
      (s.cfg.hasPos = true → y.out.step = .left →
        y.posWord s.cfg = x.posWord s.cfg - 1 ∧ -2 ^ s.cfg.posW ≤ 2 * y.pos ∧ 2 * y.pos < 2 ^ s.cfg.posW) ∧
      (y.out.step = .none → y.pos = x.pos) ∧ (s.cfg.hasPos = false → y.pos = x.pos)

/-- The push-button companion at a SAMPLE: two consecutive identical samples move PUSH, `pressed` is its change to PUSH_ACTIVE
(43_position_counter.md section 2, decision D16). That the absent companion's fields stay and `pressed` is 0 is the model's choice
(notes/assumptions/7.md). -/
def Obligations.ButtonIsDebounced : Prop :=
  ∀ (s : State) (x : Decoder) (a b sw : Bool), s.cur = some x → x.live = true →
    ∃ t y, exec (.sample a b sw) s = .next t ∧ t.cur = some y ∧ OthersKept s t ∧
      (s.cfg.hasPush = true →
        y.swlast = sw ∧ (sw = x.swlast → y.push = sw) ∧ (sw ≠ x.swlast → y.push = x.push) ∧
        (y.out.pressed = true ↔ x.push ≠ s.cfg.pushActive ∧ y.push = s.cfg.pushActive)) ∧
      (s.cfg.hasPush = false → PushKept x y ∧ y.out.pressed = false)

/-- APPLY by itself, for each Step, moves POS by the step and changes nothing else, not even the outputs last shown (43_position_counter.md
section 1, decision D15; its rows: 30_encoding.md section 6; that it is an operation of its own: notes/assumptions/10.md). -/
def Obligations.ApplyMovesOnlyThePosition : Prop :=
  ∀ (s : State) (x : Decoder) (i : Instr) (st : Step),
    (i, st) ∈ [(Instr.applyNone, Step.none), (.applyRight, .right), (.applyLeft, .left)] →
    s.cur = some x → x.live = true → s.cfg.hasPos = true →
    ∃ t y, exec i s = .next t ∧ t.cur = some y ∧ OthersKept s t ∧ y = { x with pos := y.pos } ∧
      (st = .none → y.pos = x.pos) ∧
      (st = .right → y.posWord s.cfg = x.posWord s.cfg + 1) ∧ (st = .left → y.posWord s.cfg = x.posWord s.cfg - 1) ∧
      (st ≠ .none → -2 ^ s.cfg.posW ≤ 2 * y.pos ∧ 2 * y.pos < 2 ^ s.cfg.posW)

/-! ### The cases of SAMPLE -/

/-- A case of SAMPLE is SAMPLE of its current pair where the stored pair is its previous pair, and stops by name elsewhere
(30_encoding.md section 4; notes/assumptions/9.md). -/
def Obligations.TransitionRowIsItsSample : Prop :=
  ∀ (s : State) (x : Decoder) (idx : GrayIndex) (sw : Bool), s.cur = some x → x.live = true →
    if x.gray.toNat % 4 = idx.toNat / 4 then
      exec (transitionRow idx sw) s = exec (.sample (idx.getLsbD 1) (idx.getLsbD 0) sw) s
    else exec (transitionRow idx sw) s = .refused (.transitionNotSelected idx)

/-- The stay rows: GRAY takes the index, ACC, the counters and POS stay, nothing is shown (decisions D7, D13 to D15). That a row is an operation,
performed where it is selected: notes/assumptions/9.md; the fields of absent registers: notes/assumptions/7.md. -/
def Obligations.StayRowsKeepTheCount : Prop :=
  ∀ (s : State) (x : Decoder) (sw : Bool) (i : Instr) (idx : GrayIndex),
    (i, idx) ∈ [(Instr.tStay0 sw, 0#4), (.tStay5 sw, 5#4), (.tStay10 sw, 10#4), (.tStay15 sw, 15#4)] →
    s.cur = some x → x.live = true → x.gray.toNat % 4 = idx.toNat / 4 → -3 ≤ x.acc.toInt → x.acc.toInt ≤ 3 →
    ∃ t y, exec i s = .next t ∧ t.cur = some y ∧ OthersKept s t ∧ AbsentKept s.cfg x y ∧ y.live = true ∧
      y.gray = idx ∧ y.acc = x.acc ∧ y.out.step = .none ∧ y.out.inv = false ∧ y.out.oor = false ∧
      y.ticks = x.ticks ∧ y.invcnt = x.invcnt ∧ y.pos = x.pos

/-- The forward rows: ACC moves up by one, or at +3 to 0 with Right, which TICKS (decision D13) and POS (D15) count; the sum 0 is D7, and
INVCNT stays by D14. Rows as operations: notes/assumptions/9.md; the fields of absent registers: notes/assumptions/7.md. -/
def Obligations.ForwardRowsCountUp : Prop :=
  ∀ (s : State) (x : Decoder) (sw : Bool) (i : Instr) (idx : GrayIndex),
    (i, idx) ∈ [(Instr.tFwd2 sw, 2#4), (.tFwd4 sw, 4#4), (.tFwd11 sw, 11#4), (.tFwd13 sw, 13#4)] →
    s.cur = some x → x.live = true → x.gray.toNat % 4 = idx.toNat / 4 → -3 ≤ x.acc.toInt → x.acc.toInt ≤ 3 →
    ∃ t y, exec i s = .next t ∧ t.cur = some y ∧ OthersKept s t ∧ AbsentKept s.cfg x y ∧ y.live = true ∧
      y.gray = idx ∧ y.out.inv = false ∧ y.out.oor = false ∧ y.invcnt = x.invcnt ∧
      (x.acc.toInt < 3 → y.acc.toInt = x.acc.toInt + 1 ∧ y.out.step = .none ∧ y.ticks = x.ticks ∧ y.pos = x.pos) ∧
      (x.acc.toInt = 3 → y.acc = 0#4 ∧ y.out.step = .right ∧ y.ticks = (x.ticks + 1) % 2 ^ s.cfg.tickW ∧
        (s.cfg.hasPos = true → y.posWord s.cfg = x.posWord s.cfg + 1))

/-- The backward rows: ACC moves down by one, or at -3 to 0 with Left, which TICKS (decision D13) and POS (D15) count; the sum 0 is D7, and
INVCNT stays by D14. Rows as operations: notes/assumptions/9.md; the fields of absent registers: notes/assumptions/7.md. -/
def Obligations.BackwardRowsCountDown : Prop :=
  ∀ (s : State) (x : Decoder) (sw : Bool) (i : Instr) (idx : GrayIndex),
    (i, idx) ∈ [(Instr.tBwd1 sw, 1#4), (.tBwd7 sw, 7#4), (.tBwd8 sw, 8#4), (.tBwd14 sw, 14#4)] →
    s.cur = some x → x.live = true → x.gray.toNat % 4 = idx.toNat / 4 → -3 ≤ x.acc.toInt → x.acc.toInt ≤ 3 →
    ∃ t y, exec i s = .next t ∧ t.cur = some y ∧ OthersKept s t ∧ AbsentKept s.cfg x y ∧ y.live = true ∧
      y.gray = idx ∧ y.out.inv = false ∧ y.out.oor = false ∧ y.invcnt = x.invcnt ∧
      (-3 < x.acc.toInt → y.acc.toInt = x.acc.toInt - 1 ∧ y.out.step = .none ∧ y.ticks = x.ticks ∧ y.pos = x.pos) ∧
      (x.acc.toInt = -3 → y.acc = 0#4 ∧ y.out.step = .left ∧ y.ticks = (x.ticks + 1) % 2 ^ s.cfg.tickW ∧
        (s.cfg.hasPos = true → y.posWord s.cfg = x.posWord s.cfg - 1))

/-- The INVALID rows: reported, no step, GRAY takes the index; ACC by P_INVALID_ACC (decision D9), for both its values;
INVCNT by D14, TICKS and POS by D13 and D15. Rows as operations: notes/assumptions/9.md; the fields of absent registers:
notes/assumptions/7.md. -/
def Obligations.InvalidRowsAreAbsorbed : Prop :=
  ∀ (s : State) (x : Decoder) (sw : Bool) (i : Instr) (idx : GrayIndex),
    (i, idx) ∈ [(Instr.tInv3 sw, 3#4), (.tInv6 sw, 6#4), (.tInv9 sw, 9#4), (.tInv12 sw, 12#4)] →
    s.cur = some x → x.live = true → x.gray.toNat % 4 = idx.toNat / 4 → -3 ≤ x.acc.toInt → x.acc.toInt ≤ 3 →
    ∃ t y, exec i s = .next t ∧ t.cur = some y ∧ OthersKept s t ∧ AbsentKept s.cfg x y ∧ y.live = true ∧
      y.gray = idx ∧ y.out.step = .none ∧ y.out.inv = true ∧ y.out.oor = false ∧ y.ticks = x.ticks ∧ y.pos = x.pos ∧
      (s.cfg.invalidAcc = .hold → y.acc = x.acc) ∧ (s.cfg.invalidAcc = .clear → y.acc = 0#4) ∧
      (s.cfg.hasInvcnt = true → y.invcnt = (x.invcnt + 1) % 2 ^ s.cfg.invW)

/-! ### The TransitionTable -/

/-- The entries TT[0] to TT[7] (R44 to R51). -/
def Obligations.TableEntriesZeroToSeven : Prop :=
  lookup 0b0000#4 = .zero ∧ lookup 0b0001#4 = .minus ∧ lookup 0b0010#4 = .plus ∧ lookup 0b0011#4 = .invalid ∧
  lookup 0b0100#4 = .plus ∧ lookup 0b0101#4 = .zero ∧ lookup 0b0110#4 = .invalid ∧ lookup 0b0111#4 = .minus

/-- The entries TT[8] to TT[15] (R52 to R59). -/
def Obligations.TableEntriesEightToFifteen : Prop :=
  lookup 0b1000#4 = .minus ∧ lookup 0b1001#4 = .invalid ∧ lookup 0b1010#4 = .zero ∧ lookup 0b1011#4 = .plus ∧
  lookup 0b1100#4 = .invalid ∧ lookup 0b1101#4 = .plus ∧ lookup 0b1110#4 = .minus ∧ lookup 0b1111#4 = .zero

/-- The closed form of the table (20_memory.md section 2, the spec's derivation). -/
def Obligations.TableHasItsClosedForm : Prop :=
  ∀ pa pb ca cb : Bool,
    lookup (BitVec.ofBool pa ++ BitVec.ofBool pb ++ BitVec.ofBool ca ++ BitVec.ofBool cb : BitVec 4) =
      if (pa != ca) && (pb != cb) then .invalid
      else if !(pa != ca) && !(pb != cb) then .zero
      else if pa != cb then .minus else .plus

/-- The table packed in one word, by the entry code (20_memory.md section 8, decisions D11, D31). -/
def Obligations.TablePacksIntoOneWord : Prop :=
  ∀ idx : GrayIndex, entryCode (lookup idx) = (0x364BE19C#32 >>> (2 * idx.toNat)).extractLsb' 0 2

/-- The symmetries of the table: reversal negates, the swap of A and B negates, both keep, inversion of both lines keeps
(20_memory.md section 2, the spec's derivation). -/
def Obligations.TableSymmetries : Prop :=
  ∀ p c : Pair,
    lookup (indexOf c p) = negEntry (lookup (indexOf p c)) ∧
    lookup (indexOf (swapPair p) (swapPair c)) = negEntry (lookup (indexOf p c)) ∧
    lookup (indexOf (swapPair c) (swapPair p)) = lookup (indexOf p c) ∧
    lookup (indexOf (3#2 - p) (3#2 - c)) = lookup (indexOf p c)

/-- The pseudo-operations of listings: from every stored pair FWD is a forward edge, BWD a backward edge, SAME a stay and JUMP an INVALID
transition (30_encoding.md section 6, decision D24). -/
def Obligations.PseudoOperationsTakeTheirEdges : Prop :=
  ∀ p : Pair,
    lookup (indexOf p (linePair p .fwd)) = .plus ∧ lookup (indexOf p (linePair p .bwd)) = .minus ∧
    lookup (indexOf p (linePair p .same)) = .zero ∧ lookup (indexOf p (linePair p .jump)) = .invalid

/-! ### Laws of runs -/

/-- A repeated pair: after the first SAMPLE of a pair any number of further SAMPLEs of it change neither ACC nor TICKS nor POS nor the
stored pair, and show None with no class (40_quadrature_decoder.md section 6, the spec's derivation; TICKS by decision D13, POS by D15). -/
def Obligations.RepeatedPairIsIdempotent : Prop :=
  ∀ (s : State) (x : Decoder) (a b : Bool) (n : Nat), s.cur = some x → x.live = true →
    ∃ t y u z os, exec (.sample a b false) s = .next t ∧ t.cur = some y ∧
      runOps (List.replicate n (.sample a b false)) t = some (u, os) ∧ u.cur = some z ∧
      z.acc = y.acc ∧ z.ticks = y.ticks ∧ z.pos = y.pos ∧ storedPair z.gray = storedPair y.gray ∧
      (0 < n → earlierPair z.gray = storedPair y.gray) ∧ os.length = n ∧
      ∀ o ∈ os, o.step = .none ∧ o.inv = false ∧ o.oor = false

/-- Recovery and repetition (R147): any number of INVALID transitions in a row each report `inv`, emit nothing, and under HOLD leave ACC;
after one, the next SAMPLE is judged against the pair it stored; after any SAMPLE, so after an OutOfRangeAccumulator, ACC is in range and
the next SAMPLE does not report it again. -/
def Obligations.AnomaliesAreRecoveredFrom : Prop :=
  (∀ (s : State) (x : Decoder) (n : Nat), s.cur = some x → x.live = true → -3 ≤ x.acc.toInt → x.acc.toInt ≤ 3 →
    ∃ u os y, runOps (assemble (storedPair x.gray) (List.replicate n .jump)) s = some (u, os) ∧ u.cur = some y ∧
      os.length = n ∧ (∀ o ∈ os, o.inv = true ∧ o.step = .none) ∧ (s.cfg.invalidAcc = .hold → y.acc = x.acc)) ∧
  (∀ (s : State) (x : Decoder) (a b a' b' sw sw' : Bool), s.cur = some x → x.live = true →
    ∃ t y u z, exec (.sample a b sw) s = .next t ∧ t.cur = some y ∧
      exec (.sample a' b' sw') t = .next u ∧ u.cur = some z ∧
      z.gray = (BitVec.ofBool a ++ BitVec.ofBool b ++ BitVec.ofBool a' ++ BitVec.ofBool b' : BitVec 4) ∧
      (y.out.oor = true → y.acc = 0#4) ∧ z.out.oor = false)

/-- After an INVALID transition, a SAMPLE in which the lines then moved by at most one bit is not INVALID (41_gray_state_machine.md, the
spec's derivation on resynchronisation). -/
def Obligations.SamplesResynchroniseAfterInvalid : Prop :=
  ∀ (s : State) (x : Decoder) (a b a' b' sw sw' : Bool), s.cur = some x → x.live = true →
    lookup (sampleIndex x.gray a b) = .invalid → (a' = a ∨ b' = b) →
    ∃ t y u z, exec (.sample a b sw) s = .next t ∧ t.cur = some y ∧ y.out.inv = true ∧
      exec (.sample a' b' sw') t = .next u ∧ u.cur = some z ∧ z.out.inv = false

/-- The counting law: over SAMPLEs none of which is INVALID, forward edges minus backward edges are four times Right minus Left plus the
change of ACC (40_quadrature_decoder.md section 6, the spec's derivation). -/
def Obligations.EdgesAndStepsObeyTheCountingLaw : Prop :=
  ∀ (s : State) (x : Decoder) (levels : List (Bool × Bool)), s.cur = some x → x.live = true →
    -3 ≤ x.acc.toInt → x.acc.toInt ≤ 3 → (∀ e ∈ entriesAlong (storedPair x.gray) levels, e ≠ .invalid) →
    ∃ u os y, runOps (sampleOps levels) s = some (u, os) ∧ u.cur = some y ∧ os.length = levels.length ∧
      (countEntries .plus (entriesAlong (storedPair x.gray) levels) : Int) -
          countEntries .minus (entriesAlong (storedPair x.gray) levels) =
        4 * ((countSteps .right os : Int) - countSteps .left os) + (y.acc.toInt - x.acc.toInt)

/-- A walk of n forward edges from ACC = 0 emits n / 4 Rights and no Left and ends with ACC = n mod 4; backward edges mirror it
(40_quadrature_decoder.md section 6, the spec's derivation). -/
def Obligations.PureWalksEmitOneStepInFour : Prop :=
  ∀ (s : State) (x : Decoder) (n : Nat), s.cur = some x → x.live = true → x.acc = 0#4 →
    (∃ u os y, runOps (assemble (storedPair x.gray) (List.replicate n .fwd)) s = some (u, os) ∧ u.cur = some y ∧
      countSteps .right os = n / 4 ∧ countSteps .left os = 0 ∧ y.acc.toInt = ((n % 4 : Nat) : Int)) ∧
    (∃ u os y, runOps (assemble (storedPair x.gray) (List.replicate n .bwd)) s = some (u, os) ∧ u.cur = some y ∧
      countSteps .left os = n / 4 ∧ countSteps .right os = 0 ∧ y.acc.toInt = -((n % 4 : Nat) : Int))

/-- After a step ACC is 0, and from ACC = 0 the next three SAMPLEs emit nothing, whatever they are (40_quadrature_decoder.md section 6, the
spec's derivation). -/
def Obligations.StepsAreFourSamplesApart : Prop :=
  ∀ (s t : State) (y : Decoder) (a b sw : Bool) (levels : List (Bool × Bool)),
    exec (.sample a b sw) s = .next t → t.cur = some y → y.out.step ≠ .none → levels.length ≤ 3 →
    ∃ u os, runOps (sampleOps levels) t = some (u, os) ∧ ∀ o ∈ os, o.step = .none

/-- The invariant is kept by every step, from every state that meets it: the counters in their widths, ACC in {-3, ..., +3} after the first
INIT, OutOfRangeAccumulator never reported, a step only with ACC at 0 (42_encoder_step_detector.md section 4, the spec's derivation; the
counters' widths by decisions D13 to D15). -/
def Obligations.InvariantIsKeptByEveryStep : Prop :=
  ∀ s t : State, s.Inv → step s = .next t → t.Inv

/-- After any run of SAMPLEs and IDLEs from an INIT, POS is Rights minus Lefts modulo 2^POS_W, in its range, and TICKS is their number
modulo 2^TICK_W (43_position_counter.md section 1, the spec's derivation; TICKS: 42_encoder_step_detector.md section 3, decision D13; POS:
D15). -/
def Obligations.PositionAndTicksCountTheRun : Prop :=
  ∀ (s : State) (x : Decoder) (a b sw : Bool) (ops : List Instr), s.cur = some x →
    (∀ i ∈ ops, i = .idle ∨ ∃ a b sw, i = Instr.sample a b sw) →
    ∃ u os y, runOps (.init a b sw :: ops) s = some (u, os) ∧ u.cur = some y ∧ os.length = ops.length + 1 ∧
      y.ticks = (countSteps .right os + countSteps .left os) % 2 ^ s.cfg.tickW ∧
      (s.cfg.hasPos = true →
        (y.pos - ((countSteps .right os : Int) - countSteps .left os)) % 2 ^ s.cfg.posW = 0 ∧
        -2 ^ s.cfg.posW ≤ 2 * y.pos ∧ 2 * y.pos < 2 ^ s.cfg.posW)

/-- Exchanging the roles of A and B exchanges Right and Left all along a run, and changes no `inv` (20_memory.md sections 2 and 3, the spec's
derivation). -/
def Obligations.SwappedLinesExchangeRightAndLeft : Prop :=
  ∀ (s s' : State) (x x' : Decoder) (levels : List (Bool × Bool)),
    s.cur = some x → s'.cur = some x' → x.live = true → x'.live = true → s'.cfg.invalidAcc = s.cfg.invalidAcc →
    -3 ≤ x.acc.toInt → x.acc.toInt ≤ 3 → x'.acc.toInt = -x.acc.toInt →
    storedPair x'.gray = swapPair (storedPair x.gray) →
    ∃ u u' os os', runOps (sampleOps levels) s = some (u, os) ∧
      runOps (sampleOps (levels.map fun l => (l.2, l.1))) s' = some (u', os') ∧ os.length = levels.length ∧
      os'.map (fun o => (o.step, o.inv)) = os.map fun o => (negStep o.step, o.inv)

/-- IDLEs anywhere in a run have no effect on any register at its end (40_quadrature_decoder.md section 4, the spec's derivation; for an
instance before its first INIT it rests on the model's one value for each register there, notes/assumptions/19.md). -/
def Obligations.IdlesHaveNoLaterEffect : Prop :=
  ∀ (s : State) (x : Decoder) (ops : List Instr), s.cur = some x →
    (runOps ops s).map (fun r => r.1.withoutOutputs) =
      (runOps (ops.filter fun i => i ≠ .idle) s).map fun r => r.1.withoutOutputs

/-! ### Rules of the whole machine -/

/-- Every operation is a total function of the state before, the operation and its levels (R95): after the first INIT it goes on from every
state, to such a state again, and what becomes of its instance depends on nothing else; not on what is yet to come, nor on other instances. -/
def Obligations.EveryOperationIsDefinedAfterInit : Prop :=
  ∀ (s : State) (x : Decoder) (a b sw : Bool) (i : Instr), s.cur = some x → x.live = true →
    i ∈ [Instr.init a b sw, .sample a b sw, .idle] →
    ∃ t y, exec i s = .next t ∧ t.cur = some y ∧ y.live = true ∧
      ∀ s' : State, s'.cfg = s.cfg → s'.cur = some x → ∃ t', exec i s' = .next t' ∧ t'.cur = some y

/-- Before the first INIT only INIT and IDLE go on; SAMPLE, its cases and APPLY stop by name (10_state.md section 8, decision D4;
notes/assumptions/3.md). After it APPLY stops where there is no PositionCounter (notes/assumptions/10.md). -/
def Obligations.OperationsWithoutMeaningStopByName : Prop :=
  (∀ (s : State) (x : Decoder) (i : Instr), s.cur = some x → x.live = false →
    (∀ a b sw, i ≠ .init a b sw) → i ≠ .idle → exec i s = .refused .beforeInit) ∧
  (∀ (s : State) (x : Decoder) (i : Instr), s.cur = some x → x.live = true → s.cfg.hasPos = false →
    i ∈ [Instr.applyNone, .applyRight, .applyLeft] → exec i s = .refused .positionCounterAbsent)

/-- An operation of one instance reads and writes only that instance (40_quadrature_decoder.md section 5): every other instance is kept, and
what becomes of its own depends on nothing but itself and the configuration (That an instance before its first INIT is kept too:
notes/assumptions/19.md.) -/
def Obligations.InstancesAreIndependent : Prop :=
  (∀ (i : Instr) (s t : State), exec i s = .next t → OthersKept s t) ∧
  (∀ (i : Instr) (s s' t : State), s'.cfg = s.cfg → s'.cur = s.cur → exec i s = .next t →
    ∃ t', exec i s' = .next t' ∧ t'.cur = t.cur)

/-- Operations of two different instances may be taken in either order: the instances end the same (20_memory.md section 8; the order in
which they are issued is the model's list, notes/assumptions/1.md). -/
def Obligations.InterleavingOfInstancesDoesNotMatter : Prop :=
  ∀ (s m t : State) (k k' : Nat) (i i' : Instr), k ≠ k' → i.wf s.cfg.hasPush = true → i'.wf s.cfg.hasPush = true →
    step { s with inputs := [inputOf k i, inputOf k' i'] } = .next m → step m = .next t →
    ∃ m' t', step { s with inputs := [inputOf k' i', inputOf k i] } = .next m' ∧ step m' = .next t' ∧
      t'.insts = t.insts

/-- GRAY[3:2] is read by no operation: instances that differ in it alone differ at most in it after every operation (10_state.md section 9,
the spec's derivation). -/
def Obligations.OlderPairIsNeverRead : Prop :=
  ∀ (i : Instr) (s s' t : State) (x : Decoder) (g : GrayIndex), s'.cfg = s.cfg → s.cur = some x →
    storedPair g = storedPair x.gray → s'.cur = some { x with gray := g } → exec i s = .next t →
    ∃ t' y g', exec i s' = .next t' ∧ t.cur = some y ∧ storedPair g' = storedPair y.gray ∧
      t'.cur = some { y with gray := g' }

/-- The counters, POS and the button registers are read by no rule of the decoder: SAMPLEs of two instances that agree on GRAY[1:0] and ACC
agree on GRAY's stored pair, ACC, step, `inv` and `oor`, whatever the rest and the other parameters are (10_state.md sections 3 and 6). -/
def Obligations.CountersNeverFeedBack : Prop :=
  ∀ (s s' t : State) (x x' y : Decoder) (a b sw sw' : Bool),
    s'.cfg.invalidAcc = s.cfg.invalidAcc → s.cur = some x → s'.cur = some x' → x'.live = x.live →
    storedPair x'.gray = storedPair x.gray → x'.acc = x.acc →
    exec (.sample a b sw) s = .next t → t.cur = some y →
    ∃ t' y', exec (.sample a b sw') s' = .next t' ∧ t'.cur = some y' ∧ y'.gray = y.gray ∧ y'.acc = y.acc ∧
      y'.out.step = y.out.step ∧ y'.out.inv = y.out.inv ∧ y'.out.oor = y.out.oor

/-- No step changes a parameter or the number of instances, and an instance that had its INIT has had it for good (that the parameters are
in the state: notes/assumptions/4.md; the flag of the first INIT: notes/assumptions/3.md). -/
def Obligations.ConfigurationNeverChanges : Prop :=
  ∀ s t : State, step s = .next t →
    t.cfg = s.cfg ∧ t.insts.length = s.insts.length ∧
    ∀ (k : Nat) (x : Decoder), s.insts[k]? = some x → x.live = true → ∃ y, t.insts[k]? = some y ∧ y.live = true

/-- Every one of the sixteen values of GRAY is reached, by an INIT and one SAMPLE (41_gray_state_machine.md, the spec's derivation). -/
def Obligations.EveryGrayValueIsReached : Prop :=
  ∀ (s : State) (x : Decoder) (g : GrayIndex), s.cur = some x →
    ∃ u os y, runOps [.init (g.getLsbD 3) (g.getLsbD 2) false, .sample (g.getLsbD 1) (g.getLsbD 0) false] s =
      some (u, os) ∧ u.cur = some y ∧ y.gray = g

/-! ### Steps, words, ports -/

/-- A step takes the oldest operation issued, when its word is a word of its format, and performs it on the instance it is for; with none
issued it is IDLE (notes/assumptions/1.md). -/
def Obligations.StepRunsTheDecodedOperation : Prop :=
  (∀ (s : State) (i : Input) (rest : List Input) (op : Instr), s.inputs = i :: rest →
    decode s.cfg.hasPush i.fmt i.word = .ok op →
    step s = exec op { s with inputs := rest, sel := i.inst }) ∧
  (∀ s : State, s.inputs = [] → step s = exec .idle s)

/-- Operations issued to an instance are taken one at a time in the order issued, each on the state all earlier ones left: the machine runs
them as `runOps` does (20_memory.md section 8; the list of inputs is the model's, notes/assumptions/1.md). -/
def Obligations.IssuedOperationsRunInOrder : Prop :=
  ∀ (s u : State) (os : List Output) (ops : List Instr), s.inputs = [] →
    (∀ i ∈ ops, i.wf s.cfg.hasPush = true) → runOps ops s = some (u, os) →
    core.run ops.length (s.issue s.sel ops) = .next u

/-- A word with a bit its format does not have, and the reserved Step code `10`, stop by name (30_encoding.md sections 3, 4 and 6, decision
D28; notes/assumptions/11.md and 12.md). -/
def Obligations.ReservedWordsStopByName : Prop :=
  (∀ (s : State) (i : Input) (rest : List Input), s.inputs = i :: rest →
    i.word &&& i.fmt.bitsBeyond s.cfg.hasPush ≠ 0#8 → step s = .refused (.undecodable .bitsBeyondFormat)) ∧
  (∀ (s : State) (i : Input) (rest : List Input), s.inputs = i :: rest → i.fmt = .step → i.word = 0b10#8 →
    step s = .refused (.undecodable .reservedStepCode))

/-- Decoding the canonical word of a well-formed operation gives the operation back, for every operation and with and without the button
line (30_encoding.md sections 2, 3, 4 and 6; decisions D2, D10; the formats' tag and the place of `sw`: notes/assumptions/11.md and
12.md). -/
def Obligations.DecodeOfEncodeIsTheOperation : Prop :=
  ∀ (hasPush : Bool) (i : Instr), i.wf hasPush = true → decode hasPush (encode i).1 (encode i).2 = .ok i

/-- The operation map: all sixteen input words `r e a b` (30_encoding.md section 4, decisions D2, D19; the formats' tag:
notes/assumptions/11.md). -/
def Obligations.InputWordsSelectTheirOperation : Prop :=
  ∀ a b : Bool,
    (∀ e : Bool, decode false .op (0#4 ++ 1#1 ++ BitVec.ofBool e ++ BitVec.ofBool a ++ BitVec.ofBool b : BitVec 8) =
      .ok (.init a b false)) ∧
    decode false .op (0#4 ++ 0#1 ++ 1#1 ++ BitVec.ofBool a ++ BitVec.ofBool b : BitVec 8) = .ok (.sample a b false) ∧
    decode false .op (0#4 ++ 0#1 ++ 0#1 ++ BitVec.ofBool a ++ BitVec.ofBool b : BitVec 8) = .ok .idle

/-- A few words written out from the spec's encodings decode to what they stand for (30_encoding.md sections 2, 3, 4 and 6, decisions D2,
D10; the formats' tag: notes/assumptions/11.md). -/
def Obligations.WrittenWordsDecode : Prop :=
  decode false .op 0b1011#8 = .ok (.init true true false) ∧ decode false .op 0b0110#8 = .ok (.sample true false false) ∧
  decode false .op 0b0000#8 = .ok .idle ∧ decode true .op 0b10101#8 = .ok (.sample false true true) ∧
  decode false .gidx 0b1101#8 = .ok (.tFwd13 false) ∧ decode false .gidx 0b0110#8 = .ok (.tInv6 false) ∧
  decode false .step 0b11#8 = .ok .applyLeft

/-- The decoder follows spec/opcode_table.json: the row of the operation read is the one row of the format whose fixed bits the word has
(30_encoding.md sections 4 and 6; the formats' tag and the place of `sw`: notes/assumptions/11.md and 12.md). -/
def Obligations.DecoderFollowsTheOpcodeTable : Prop :=
  ∀ (hasPush : Bool) (f : Format) (w : Byte) (i : Instr), decode hasPush f w = .ok i →
    (opcodeRows.filter fun r => r.matches f w).map (fun r => r.number) = [i.rowNumber]

/-- The codes of the outputs in the output word `{oor, inv, step[1:0]}` (30_encoding.md sections 2 and 7, decisions D10, D12, D17). -/
def Obligations.OutputWordCarriesTheOutputs : Prop :=
  ∀ (st : Step) (inv oor pressed : Bool),
    (⟨st, inv, oor, pressed⟩ : Output).word.getLsbD 3 = oor ∧ (⟨st, inv, oor, pressed⟩ : Output).word.getLsbD 2 = inv ∧
    ((⟨st, inv, oor, pressed⟩ : Output).word.extractLsb' 0 2).toInt = stepValue st

/-- The port-level form: at a clock edge the instance performs the operation the pins select, and shows what the pins showed before the edge
(30_encoding.md sections 3 and 4, decisions D1, D2, D19, D21). -/
def Obligations.PinsShowTheOutputsOfTheEdge : Prop :=
  ∀ (s : State) (x : Decoder) (rst en a b sw : Bool), s.cur = some x → x.live = true →
    ∃ t y, clockEdge rst en a b sw s = .next t ∧ t.cur = some y ∧ y.out = pinOutputs s.cfg rst en a b sw x ∧
      (rst = true → exec (.init a b sw) s = .next t) ∧
      (rst = false → en = true → exec (.sample a b sw) s = .next t) ∧
      (rst = false → en = false → exec .idle s = .next t)
end

