-- ==== Sys2Proof/Laws/Operands.lean ====
section
/-! SUPPORT. The fields of an index, and the ranges the two wraps keep. -/

namespace Sys2Proof.Machine

/-- The current pair of an index is what was put there. -/
@[simp] theorem storedPair_indexOf (p c : Pair) : storedPair (indexOf p c) = c := by
  revert p c; decide

/-- The previous pair of an index is what was put there. -/
@[simp] theorem earlierPair_indexOf (p c : Pair) : earlierPair (indexOf p c) = p := by
  revert p c; decide

/-- An index is its two pairs. -/
theorem indexOf_pairs (idx : GrayIndex) : indexOf (earlierPair idx) (storedPair idx) = idx := by
  revert idx; decide

/-- The levels of a pair make the pair again. -/
theorem pairCode_pairLevels (p : Pair) : pairCode (pairLevels p).1 (pairLevels p).2 = p := by
  revert p; decide

theorem storedPair_sampleIndex (g : GrayIndex) (a b : Bool) : storedPair (sampleIndex g a b) = pairCode a b :=
  storedPair_indexOf _ _

theorem earlierPair_sampleIndex (g : GrayIndex) (a b : Bool) : earlierPair (sampleIndex g a b) = storedPair g :=
  earlierPair_indexOf _ _

/-- An unsigned register holds a value of its width. -/
theorem wrapUnsigned_lt (w v : Nat) : wrapUnsigned w v < 2 ^ w :=
  Nat.mod_lt _ (Nat.two_pow_pos w)

/-- Nothing wraps below the width. -/
theorem wrapUnsigned_of_lt {w v : Nat} (h : v < 2 ^ w) : wrapUnsigned w v = v := Nat.mod_eq_of_lt h

/-- A two's complement register holds a value of its range. -/
theorem wrapSigned_range (w : Nat) (v : Int) :
    -2 ^ w ≤ 2 * wrapSigned w v ∧ 2 * wrapSigned w v < 2 ^ w := by
  have hp : 0 < 2 ^ w := Nat.two_pow_pos w
  have h1 := Int.le_bmod (x := v) hp
  have h2 := Int.bmod_lt (x := v) hp
  have hc : ((2 ^ w : Nat) : Int) = 2 ^ w := by push_cast; rfl
  rw [hc] at h1 h2
  have hpos : (0 : Int) < 2 ^ w := by positivity
  simp only [wrapSigned]
  omega

/-- The wrap forgets only multiples of `2^w`. -/
theorem wrapSigned_add (w : Nat) (u v : Int) : wrapSigned w (wrapSigned w u + v) = wrapSigned w (u + v) := by
  simp [wrapSigned]

theorem wrapUnsigned_add (w u v : Nat) : wrapUnsigned w (wrapUnsigned w u + v) = wrapUnsigned w (u + v) := by
  simp [wrapUnsigned]

/-- A value of the range does not wrap. -/
theorem wrapSigned_of_range {w : Nat} {v : Int} (h1 : -2 ^ w ≤ 2 * v) (h2 : 2 * v < 2 ^ w) :
    wrapSigned w v = v := by
  have hc : ((2 ^ w : Nat) : Int) = 2 ^ w := by push_cast; rfl
  simp only [wrapSigned]
  apply Int.bmod_eq_of_le_mul_two <;> rw [hc] <;> omega

end Sys2Proof.Machine
end

