-- ==== Sys2Proof/Laws/Flags.lean ====
section
/-! SUPPORT. The step detector, said once: its cases (42_encoder_step_detector.md R110). -/

namespace Sys2Proof.Machine

theorem accLegal_iff (acc : AccWord) : accLegal acc = true ↔ -3 ≤ acc.toInt ∧ acc.toInt ≤ 3 := by
  simp [accLegal]

/-- Narrowing to four bits keeps every value that ACC can represent. -/
theorem toInt_ofInt_of_fits {v : Int} (h1 : -8 ≤ v) (h2 : v < 8) : (BitVec.ofInt 4 v).toInt = v := by
  rw [BitVec.toInt_ofInt]
  apply Int.bmod_eq_of_le_mul_two <;> omega

/-- Case out of range. -/
theorem detect_outOfRange {acc : AccWord} (h : accLegal acc = false) (p : InvalidAcc) (e : Entry) :
    detect p acc e = ⟨0#4, .none, true⟩ := by
  simp [detect, h]

/-- Case INVALID. -/
theorem detect_invalid {acc : AccWord} (h : accLegal acc = true) (p : InvalidAcc) :
    detect p acc .invalid = ⟨accAfterInvalid p acc, .none, false⟩ := by
  simp [detect, h, entryVal?]

/-- The addition. -/
theorem detect_numeric {acc : AccWord} (h : accLegal acc = true) (p : InvalidAcc) {e : Entry} {v : Int}
    (hv : entryVal? e = some v) : detect p acc e = detectSum (acc.toInt + v) := by
  simp [detect, h, hv]

/-- The value of a numeric entry is -1, 0 or 1. -/
theorem entryVal?_range {e : Entry} {v : Int} (hv : entryVal? e = some v) : -1 ≤ v ∧ v ≤ 1 := by
  cases e <;> simp [entryVal?] at hv <;> omega

/-- Everything ESD can give: a full cycle with ACC at 0, or None with ACC in range. -/
theorem detect_cases (p : InvalidAcc) (acc : AccWord) (e : Entry) :
    (accLegal acc = false ∧ detect p acc e = ⟨0#4, .none, true⟩) ∨
    (accLegal acc = true ∧ e = .invalid ∧ detect p acc e = ⟨accAfterInvalid p acc, .none, false⟩) ∨
    (acc.toInt = 3 ∧ e = .plus ∧ detect p acc e = ⟨0#4, .right, false⟩) ∨
    (acc.toInt = -3 ∧ e = .minus ∧ detect p acc e = ⟨0#4, .left, false⟩) ∨
    (accLegal acc = true ∧ ∃ v, entryVal? e = some v ∧ -3 ≤ acc.toInt + v ∧ acc.toInt + v ≤ 3 ∧
      detect p acc e = ⟨BitVec.ofInt 4 (acc.toInt + v), .none, false⟩) := by
  cases hl : accLegal acc with
  | false => exact .inl ⟨rfl, detect_outOfRange hl p e⟩
  | true =>
    have hr := (accLegal_iff acc).mp hl
    right
    cases e with
    | invalid => exact .inl ⟨rfl, rfl, detect_invalid hl p⟩
    | zero =>
      refine .inr (.inr (.inr ⟨rfl, 0, rfl, by omega, by omega, ?_⟩))
      rw [detect_numeric hl p (e := .zero) (v := 0) rfl, detectSum, if_neg (by omega), if_neg (by omega)]
    | plus =>
      rw [detect_numeric hl p (e := .plus) (v := 1) rfl, detectSum]
      by_cases h : acc.toInt = 3
      · exact .inr (.inl ⟨h, rfl, by rw [if_pos (by omega)]⟩)
      · exact .inr (.inr (.inr ⟨rfl, 1, rfl, by omega, by omega, by rw [if_neg (by omega), if_neg (by omega)]⟩))
    | minus =>
      rw [detect_numeric hl p (e := .minus) (v := -1) rfl, detectSum]
      by_cases h : acc.toInt = -3
      · exact .inr (.inr (.inl ⟨h, rfl, by rw [if_neg (by omega), if_pos (by omega)]⟩))
      · exact .inr (.inr (.inr ⟨rfl, -1, rfl, by omega, by omega, by rw [if_neg (by omega), if_neg (by omega)]⟩))

theorem isInvalid_iff (e : Entry) : isInvalid e = true ↔ e = .invalid := by simp [isInvalid]

/-- `oor` is exactly an accumulator out of range. -/
theorem detect_oor_iff (p : InvalidAcc) (acc : AccWord) (e : Entry) :
    (detect p acc e).oor = true ↔ acc.toInt < -3 ∨ 3 < acc.toInt := by
  have hlr := accLegal_iff acc
  rcases detect_cases p acc e with ⟨hl, h⟩ | ⟨hl, _, h⟩ | ⟨hl, _, h⟩ | ⟨hl, _, h⟩ | ⟨hl, v, _, _, _, h⟩ <;> rw [h]
  · simp only [hl, Bool.false_eq_true, false_iff] at hlr
    simp only [true_iff]
    omega
  · have := hlr.mp hl
    simp only [Bool.false_eq_true, false_iff]
    omega
  · simp only [Bool.false_eq_true, false_iff]
    omega
  · simp only [Bool.false_eq_true, false_iff]
    omega
  · have := hlr.mp hl
    simp only [Bool.false_eq_true, false_iff]
    omega

/-- ESD leaves an accumulator in range, whatever it found. -/
theorem detect_acc_range (p : InvalidAcc) (acc : AccWord) (e : Entry) :
    -3 ≤ (detect p acc e).acc.toInt ∧ (detect p acc e).acc.toInt ≤ 3 := by
  rcases detect_cases p acc e with ⟨_, h⟩ | ⟨hl, _, h⟩ | ⟨_, _, h⟩ | ⟨_, _, h⟩ | ⟨_, v, _, _, _, h⟩ <;> rw [h]
  · decide
  · cases p
    · exact (accLegal_iff acc).mp hl
    · simp [accAfterInvalid]
  · decide
  · decide
  · simp only [toInt_ofInt_of_fits (v := acc.toInt + v) (by omega) (by omega)]
    omega

/-- An emitted step comes with a numeric entry, no `oor`, and ACC at 0. -/
theorem detect_step_emitted (p : InvalidAcc) (acc : AccWord) (e : Entry) (hn : (detect p acc e).step ≠ .none) :
    e ≠ .invalid ∧ (detect p acc e).oor = false ∧ (detect p acc e).acc = 0#4 := by
  rcases detect_cases p acc e with ⟨_, h⟩ | ⟨_, _, h⟩ | ⟨_, _, h⟩ | ⟨_, _, h⟩ | ⟨_, v, _, _, _, h⟩ <;>
    rw [h] at hn ⊢ <;> simp_all

/-- TICKS keeps its width. -/
theorem ticksAfter_lt {w ticks : Nat} (h : ticks < 2 ^ w) (st : Step) : ticksAfter w st ticks < 2 ^ w := by
  cases st
  · exact h
  · exact wrapUnsigned_lt _ _
  · exact wrapUnsigned_lt _ _

/-- INVCNT keeps its width. -/
theorem invcntAfter_lt {w n : Nat} (h : n < 2 ^ w) (inv : Bool) : invcntAfter w inv n < 2 ^ w := by
  cases inv
  · exact h
  · exact wrapUnsigned_lt _ _

/-- POS keeps its range. -/
theorem posAfter_range {w : Nat} {p : Int} (h : -2 ^ w ≤ 2 * p ∧ 2 * p < 2 ^ w) (st : Step) :
    -2 ^ w ≤ 2 * posAfter w st p ∧ 2 * posAfter w st p < 2 ^ w := by
  cases st
  · exact h
  · exact wrapSigned_range _ _
  · exact wrapSigned_range _ _

/-- POS as a word moves by the step. -/
theorem ofInt_posAfter (w : Nat) (st : Step) (p : Int) :
    BitVec.ofInt w (posAfter w st p) = BitVec.ofInt w (p + stepValue st) := by
  cases st
  · simp [posAfter, stepValue]
  all_goals
    apply BitVec.eq_of_toInt_eq
    simp [posAfter, wrapSigned, BitVec.toInt_ofInt]

end Sys2Proof.Machine
end

