-- ==== Sys2Proof/Laws/State.lean ====
section
/-! SUPPORT. Every field of the state after every update, true by rfl, and the instance selected after a write. -/

namespace Sys2Proof.Machine

variable (s : State) (x : Decoder) (c : Config)

/-! ### Writing the instance selected -/

@[simp] theorem State.setCur_cfg : (s.setCur x).cfg = s.cfg := rfl
@[simp] theorem State.setCur_sel : (s.setCur x).sel = s.sel := rfl
@[simp] theorem State.setCur_inputs : (s.setCur x).inputs = s.inputs := rfl
@[simp] theorem State.setCur_insts : (s.setCur x).insts = s.insts.set s.sel x := rfl

theorem State.sel_lt_of_cur {s : State} {x : Decoder} (h : s.cur = some x) : s.sel < s.insts.length :=
  (List.getElem?_eq_some_iff.mp h).1

theorem State.mem_of_cur {s : State} {x : Decoder} (h : s.cur = some x) : x ∈ s.insts :=
  List.mem_of_getElem? h

/-- A written instance reads back. -/
theorem State.cur_setCur {s : State} {x : Decoder} (h : s.cur = some x) (y : Decoder) :
    (s.setCur y).cur = some y := by
  have hl := State.sel_lt_of_cur h
  simp [State.cur, hl]

/-- Every other instance is untouched. -/
theorem State.setCur_other {s : State} {y : Decoder} {k : Nat} (hk : k ≠ s.sel) :
    (s.setCur y).insts[k]? = s.insts[k]? := by
  simp [List.getElem?_set_ne (Ne.symm hk)]

theorem State.setCur_setCur (y : Decoder) : (s.setCur x).setCur y = s.setCur y := by
  simp [State.setCur]

theorem State.lastOutput_of_cur {s : State} {x : Decoder} (h : s.cur = some x) : s.lastOutput = x.out := by
  simp [State.lastOutput, h]

/-! ### INIT -/

variable (a b sw : Bool) (idx : GrayIndex) (st : Step)

@[simp] theorem initDecoder_live : (initDecoder c a b sw x).live = true := rfl
@[simp] theorem initDecoder_gray :
    (initDecoder c a b sw x).gray = indexOf (pairCode a b) (pairCode a b) := rfl
@[simp] theorem initDecoder_acc : (initDecoder c a b sw x).acc = 0#4 := rfl
@[simp] theorem initDecoder_ticks : (initDecoder c a b sw x).ticks = 0 := rfl
@[simp] theorem initDecoder_invcnt :
    (initDecoder c a b sw x).invcnt = if c.hasInvcnt then 0 else x.invcnt := rfl
@[simp] theorem initDecoder_pos : (initDecoder c a b sw x).pos = if c.hasPos then 0 else x.pos := rfl
@[simp] theorem initDecoder_swlast :
    (initDecoder c a b sw x).swlast = if c.hasPush then sw else x.swlast := rfl
@[simp] theorem initDecoder_push :
    (initDecoder c a b sw x).push = if c.hasPush then sw else x.push := rfl
@[simp] theorem initDecoder_out : (initDecoder c a b sw x).out = Output.quiet := rfl

/-! ### SAMPLE from its index on -/

@[simp] theorem sampleDecoder_live : (sampleDecoder c idx sw x).live = x.live := rfl
@[simp] theorem sampleDecoder_gray : (sampleDecoder c idx sw x).gray = idx := rfl
@[simp] theorem sampleDecoder_acc :
    (sampleDecoder c idx sw x).acc = (detect c.invalidAcc x.acc (lookup idx)).acc := rfl
@[simp] theorem sampleDecoder_ticks :
    (sampleDecoder c idx sw x).ticks =
      ticksAfter c.tickW (detect c.invalidAcc x.acc (lookup idx)).step x.ticks := rfl
@[simp] theorem sampleDecoder_invcnt :
    (sampleDecoder c idx sw x).invcnt =
      if c.hasInvcnt then invcntAfter c.invW (isInvalid (lookup idx)) x.invcnt else x.invcnt := rfl
@[simp] theorem sampleDecoder_pos :
    (sampleDecoder c idx sw x).pos =
      if c.hasPos then posAfter c.posW (detect c.invalidAcc x.acc (lookup idx)).step x.pos else x.pos := rfl
@[simp] theorem sampleDecoder_swlast :
    (sampleDecoder c idx sw x).swlast = if c.hasPush then sw else x.swlast := rfl
@[simp] theorem sampleDecoder_push :
    (sampleDecoder c idx sw x).push = if c.hasPush then pushAfter sw x.swlast x.push else x.push := rfl
@[simp] theorem sampleDecoder_out : (sampleDecoder c idx sw x).out = sampleOutputs c idx sw x := rfl

@[simp] theorem sampleOutputs_step :
    (sampleOutputs c idx sw x).step = (detect c.invalidAcc x.acc (lookup idx)).step := rfl
@[simp] theorem sampleOutputs_inv : (sampleOutputs c idx sw x).inv = isInvalid (lookup idx) := rfl
@[simp] theorem sampleOutputs_oor :
    (sampleOutputs c idx sw x).oor = (detect c.invalidAcc x.acc (lookup idx)).oor := rfl

/-! ### IDLE and APPLY -/

@[simp] theorem idleDecoder_live : (idleDecoder x).live = x.live := rfl
@[simp] theorem idleDecoder_gray : (idleDecoder x).gray = x.gray := rfl
@[simp] theorem idleDecoder_acc : (idleDecoder x).acc = x.acc := rfl
@[simp] theorem idleDecoder_ticks : (idleDecoder x).ticks = x.ticks := rfl
@[simp] theorem idleDecoder_invcnt : (idleDecoder x).invcnt = x.invcnt := rfl
@[simp] theorem idleDecoder_pos : (idleDecoder x).pos = x.pos := rfl
@[simp] theorem idleDecoder_swlast : (idleDecoder x).swlast = x.swlast := rfl
@[simp] theorem idleDecoder_push : (idleDecoder x).push = x.push := rfl
@[simp] theorem idleDecoder_out : (idleDecoder x).out = Output.quiet := rfl

@[simp] theorem applyDecoder_live : (applyDecoder c st x).live = x.live := rfl
@[simp] theorem applyDecoder_gray : (applyDecoder c st x).gray = x.gray := rfl
@[simp] theorem applyDecoder_acc : (applyDecoder c st x).acc = x.acc := rfl
@[simp] theorem applyDecoder_ticks : (applyDecoder c st x).ticks = x.ticks := rfl
@[simp] theorem applyDecoder_invcnt : (applyDecoder c st x).invcnt = x.invcnt := rfl
@[simp] theorem applyDecoder_pos : (applyDecoder c st x).pos = posAfter c.posW st x.pos := rfl
@[simp] theorem applyDecoder_swlast : (applyDecoder c st x).swlast = x.swlast := rfl
@[simp] theorem applyDecoder_push : (applyDecoder c st x).push = x.push := rfl
@[simp] theorem applyDecoder_out : (applyDecoder c st x).out = x.out := rfl

@[simp] theorem Output.quiet_step : Output.quiet.step = .none := rfl
@[simp] theorem Output.quiet_inv : Output.quiet.inv = false := rfl
@[simp] theorem Output.quiet_oor : Output.quiet.oor = false := rfl
@[simp] theorem Output.quiet_pressed : Output.quiet.pressed = false := rfl

end Sys2Proof.Machine
end

