-- ==== Sys2Proof/Laws/Ops.lean ====
section
/-! SUPPORT. What an operation can do, said once: `exec_next` is the inversion of `exec` that provers cite. -/

namespace Sys2Proof.Machine

theorem onInstance_of_cur {f : Config → Decoder → Decoder} {s : State} {x : Decoder} (h : s.cur = some x) :
    onInstance f s = .next (s.setCur (f s.cfg x)) := by
  simp [onInstance, h]

theorem onLive_of_cur {bar : Config → Decoder → Option Refusal} {f : Config → Decoder → Decoder} {s : State}
    {x : Decoder} (h : s.cur = some x) (hl : x.live = true) (hb : bar s.cfg x = none) :
    onLive bar f s = .next (s.setCur (f s.cfg x)) := by
  simp [onLive, h, hl, hb]

theorem onLive_barred {bar : Config → Decoder → Option Refusal} {f : Config → Decoder → Decoder} {s : State}
    {x : Decoder} {r : Refusal} (h : s.cur = some x) (hl : x.live = true) (hb : bar s.cfg x = some r) :
    onLive bar f s = .refused r := by
  simp [onLive, h, hl, hb]

theorem onLive_beforeInit {bar : Config → Decoder → Option Refusal} {f : Config → Decoder → Decoder} {s : State}
    {x : Decoder} (h : s.cur = some x) (hl : x.live = false) : onLive bar f s = .refused .beforeInit := by
  simp [onLive, h, hl]

theorem onInstance_next {f : Config → Decoder → Decoder} {s t : State} (h : onInstance f s = .next t) :
    ∃ x, s.cur = some x ∧ t = s.setCur (f s.cfg x) := by
  cases hc : s.cur with
  | none => simp [onInstance, hc] at h
  | some x => rw [onInstance_of_cur hc] at h; exact ⟨x, rfl, by simpa using h.symm⟩

theorem onLive_next {bar : Config → Decoder → Option Refusal} {f : Config → Decoder → Decoder} {s t : State}
    (h : onLive bar f s = .next t) :
    ∃ x, s.cur = some x ∧ x.live = true ∧ bar s.cfg x = none ∧ t = s.setCur (f s.cfg x) := by
  cases hc : s.cur with
  | none => simp [onLive, hc] at h
  | some x =>
    cases hl : x.live with
    | false => rw [onLive_beforeInit hc hl] at h; simp at h
    | true =>
      cases hb : bar s.cfg x with
      | some r => rw [onLive_barred hc hl hb] at h; simp at h
      | none => rw [onLive_of_cur hc hl hb] at h; exact ⟨x, rfl, hl, hb, by simpa using h.symm⟩

/-- What an operation does to the instance it is for, where it goes on. -/
inductive Change where
  | inits (a b sw : Bool)
  | samples (idx : GrayIndex) (sw : Bool)
  | idles
  | applies (st : Step)

/-- The instance after a change. -/
def Change.apply (c : Config) (x : Decoder) : Change → Decoder
  | .inits a b sw => initDecoder c a b sw x
  | .samples idx sw => sampleDecoder c idx sw x
  | .idles => idleDecoder x
  | .applies st => applyDecoder c st x

/-- When a change takes place, and which index a SAMPLE forms. -/
def Change.takes (c : Config) (x : Decoder) : Change → Prop
  | .inits _ _ _ => True
  | .samples idx _ => x.live = true ∧ storedPair x.gray = earlierPair idx
  | .idles => True
  | .applies _ => x.live = true ∧ c.hasPos = true

/-- The change an operation stands for on the instance `x`. -/
def changeOf (x : Decoder) : Instr → Change
  | .init a b sw => .inits a b sw
  | .sample a b sw => .samples (sampleIndex x.gray a b) sw
  | .idle => .idles
  | .tStay0 sw => .samples 0b0000#4 sw
  | .tBwd1 sw => .samples 0b0001#4 sw
  | .tFwd2 sw => .samples 0b0010#4 sw
  | .tInv3 sw => .samples 0b0011#4 sw
  | .tFwd4 sw => .samples 0b0100#4 sw
  | .tStay5 sw => .samples 0b0101#4 sw
  | .tInv6 sw => .samples 0b0110#4 sw
  | .tBwd7 sw => .samples 0b0111#4 sw
  | .tBwd8 sw => .samples 0b1000#4 sw
  | .tInv9 sw => .samples 0b1001#4 sw
  | .tStay10 sw => .samples 0b1010#4 sw
  | .tFwd11 sw => .samples 0b1011#4 sw
  | .tInv12 sw => .samples 0b1100#4 sw
  | .tFwd13 sw => .samples 0b1101#4 sw
  | .tBwd14 sw => .samples 0b1110#4 sw
  | .tStay15 sw => .samples 0b1111#4 sw
  | .applyNone => .applies .none
  | .applyRight => .applies .right
  | .applyLeft => .applies .left

/-- The SAMPLE of levels is the change at the index they form. -/
theorem sampleOp_next {a b sw : Bool} {s t : State} (h : sampleOp a b sw s = .next t) :
    ∃ x, s.cur = some x ∧ (Change.samples (sampleIndex x.gray a b) sw).takes s.cfg x ∧
      t = s.setCur (sampleDecoder s.cfg (sampleIndex x.gray a b) sw x) := by
  obtain ⟨x, hc, hl, -, ht⟩ := onLive_next h
  exact ⟨x, hc, ⟨hl, (earlierPair_sampleIndex _ _ _).symm⟩, ht⟩

theorem transitionOp_next {idx : GrayIndex} {sw : Bool} {s t : State} (h : transitionOp idx sw s = .next t) :
    ∃ x, s.cur = some x ∧ (Change.samples idx sw).takes s.cfg x ∧
      t = s.setCur (sampleDecoder s.cfg idx sw x) := by
  obtain ⟨x, hc, hl, hb, ht⟩ := onLive_next h
  refine ⟨x, hc, ⟨hl, ?_⟩, ht⟩
  by_contra hne
  simp [hne] at hb

theorem applyOp_next {st : Step} {s t : State} (h : applyOp st s = .next t) :
    ∃ x, s.cur = some x ∧ (Change.applies st).takes s.cfg x ∧ t = s.setCur (applyDecoder s.cfg st x) := by
  obtain ⟨x, hc, hl, hb, ht⟩ := onLive_next h
  refine ⟨x, hc, ⟨hl, ?_⟩, ht⟩
  by_contra hne
  simp [hne] at hb

/-- Everything an operation that goes on can do: the change it stands for, taken, of the instance selected, and nothing else. -/
theorem exec_next {i : Instr} {s t : State} (h : exec i s = .next t) :
    ∃ x, s.cur = some x ∧ (changeOf x i).takes s.cfg x ∧ t = s.setCur ((changeOf x i).apply s.cfg x) := by
  cases i with
  | init a b sw =>
    obtain ⟨x, hc, ht⟩ := onInstance_next (f := fun c x => initDecoder c a b sw x) h
    exact ⟨x, hc, trivial, ht⟩
  | idle =>
    obtain ⟨x, hc, ht⟩ := onInstance_next (f := fun _ x => idleDecoder x) h
    exact ⟨x, hc, trivial, ht⟩
  | sample a b sw => exact sampleOp_next h
  | applyNone | applyRight | applyLeft => exact applyOp_next h
  | tStay0 sw | tBwd1 sw | tFwd2 sw | tInv3 sw | tFwd4 sw | tStay5 sw | tInv6 sw | tBwd7 sw | tBwd8 sw | tInv9 sw
  | tStay10 sw | tFwd11 sw | tInv12 sw | tFwd13 sw | tBwd14 sw | tStay15 sw => exact transitionOp_next h

/-- INIT goes on from every state of its instance. -/
theorem exec_init {s : State} {x : Decoder} (h : s.cur = some x) (a b sw : Bool) :
    exec (.init a b sw) s = .next (s.setCur (initDecoder s.cfg a b sw x)) :=
  onInstance_of_cur (f := fun c x => initDecoder c a b sw x) h

/-- IDLE goes on from every state of its instance. -/
theorem exec_idle {s : State} {x : Decoder} (h : s.cur = some x) :
    exec .idle s = .next (s.setCur (idleDecoder x)) :=
  onInstance_of_cur (f := fun _ x => idleDecoder x) h

/-- SAMPLE goes on from every state of an instance that had its INIT. -/
theorem exec_sample {s : State} {x : Decoder} (h : s.cur = some x) (hl : x.live = true) (a b sw : Bool) :
    exec (.sample a b sw) s = .next (s.setCur (sampleDecoder s.cfg (sampleIndex x.gray a b) sw x)) :=
  onLive_of_cur (bar := fun _ _ => none) (f := fun c x => sampleDecoder c (sampleIndex x.gray a b) sw x) h hl rfl

/-- A case of SAMPLE goes on where the stored pair selects it. -/
theorem transitionOp_of_selected {s : State} {x : Decoder} (h : s.cur = some x) (hl : x.live = true)
    {idx : GrayIndex} (hp : storedPair x.gray = earlierPair idx) (sw : Bool) :
    transitionOp idx sw s = .next (s.setCur (sampleDecoder s.cfg idx sw x)) :=
  onLive_of_cur h hl (by simp [hp])

/-- APPLY goes on where the PositionCounter is there. -/
theorem applyOp_of_present {s : State} {x : Decoder} (h : s.cur = some x) (hl : x.live = true)
    (hp : s.cfg.hasPos = true) (st : Step) :
    applyOp st s = .next (s.setCur (applyDecoder s.cfg st x)) :=
  onLive_of_cur h hl (by simp [hp])

/-- And an operation whose change can be taken goes on. -/
theorem exec_of_takes {i : Instr} {s : State} {x : Decoder} (h : s.cur = some x)
    (ht : (changeOf x i).takes s.cfg x) :
    exec i s = .next (s.setCur ((changeOf x i).apply s.cfg x)) := by
  cases i with
  | init a b sw => exact exec_init h a b sw
  | idle => exact exec_idle h
  | sample a b sw => exact exec_sample h ht.1 a b sw
  | applyNone | applyRight | applyLeft => exact applyOp_of_present h ht.1 ht.2 _
  | tStay0 sw | tBwd1 sw | tFwd2 sw | tInv3 sw | tFwd4 sw | tStay5 sw | tInv6 sw | tBwd7 sw | tBwd8 sw | tInv9 sw
  | tStay10 sw | tFwd11 sw | tInv12 sw | tFwd13 sw | tBwd14 sw | tStay15 sw =>
    exact transitionOp_of_selected h ht.1 ht.2 sw

/-- Before the first INIT there is no SAMPLE. -/
theorem sampleOp_beforeInit {s : State} {x : Decoder} (h : s.cur = some x) (hl : x.live = false) (a b sw : Bool) :
    sampleOp a b sw s = .refused .beforeInit :=
  onLive_beforeInit h hl

/-- Before the first INIT there is no case of SAMPLE. -/
theorem transitionOp_beforeInit {s : State} {x : Decoder} (h : s.cur = some x) (hl : x.live = false)
    (idx : GrayIndex) (sw : Bool) : transitionOp idx sw s = .refused .beforeInit :=
  onLive_beforeInit h hl

/-- Before the first INIT there is no APPLY. -/
theorem applyOp_beforeInit {s : State} {x : Decoder} (h : s.cur = some x) (hl : x.live = false) (st : Step) :
    applyOp st s = .refused .beforeInit :=
  onLive_beforeInit h hl

/-- A case of SAMPLE that the stored pair does not select. -/
theorem transitionOp_not_selected {s : State} {x : Decoder} (h : s.cur = some x) (hl : x.live = true)
    {idx : GrayIndex} (hp : storedPair x.gray ≠ earlierPair idx) (sw : Bool) :
    transitionOp idx sw s = .refused (.transitionNotSelected idx) :=
  onLive_barred h hl (by simp [hp])

/-- APPLY where there is no PositionCounter. -/
theorem applyOp_absent {s : State} {x : Decoder} (h : s.cur = some x) (hl : x.live = true)
    (hp : s.cfg.hasPos = false) (st : Step) : applyOp st s = .refused .positionCounterAbsent :=
  onLive_barred h hl (by simp [hp])

/-- The case of SAMPLE at an index, by its row. -/
theorem exec_transitionRow (idx : GrayIndex) (sw : Bool) (s : State) :
    exec (transitionRow idx sw) s = transitionOp idx sw s := by
  obtain ⟨⟨n, hn⟩⟩ := idx
  interval_cases n <;> rfl

end Sys2Proof.Machine
end

