-- ==== Sys2Proof/Laws/PerInstr.lean ====
section
/-! SUPPORT. Statements made for every operation, one lemma for each constructor. `EncodeFits`: the canonical word of a well-formed
operation has only the bits its format has (30_encoding.md R75, R78, R83). -/

namespace Sys2Proof.Laws.EncodeFits

/-- The canonical word of the operation sets no bit beyond its format. -/
def Statement (i : Instr) : Prop :=
  ∀ hasPush : Bool, i.wf hasPush = true → (encode i).2 &&& (encode i).1.bitsBeyond hasPush = 0#8

theorem init (a b sw : Bool) : Statement (.init a b sw) := by unfold Statement; revert a b sw; decide
theorem sample (a b sw : Bool) : Statement (.sample a b sw) := by unfold Statement; revert a b sw; decide
theorem idle : Statement .idle := by unfold Statement; decide
theorem tStay0 (sw : Bool) : Statement (.tStay0 sw) := by unfold Statement; revert sw; decide
theorem tBwd1 (sw : Bool) : Statement (.tBwd1 sw) := by unfold Statement; revert sw; decide
theorem tFwd2 (sw : Bool) : Statement (.tFwd2 sw) := by unfold Statement; revert sw; decide
theorem tInv3 (sw : Bool) : Statement (.tInv3 sw) := by unfold Statement; revert sw; decide
theorem tFwd4 (sw : Bool) : Statement (.tFwd4 sw) := by unfold Statement; revert sw; decide
theorem tStay5 (sw : Bool) : Statement (.tStay5 sw) := by unfold Statement; revert sw; decide
theorem tInv6 (sw : Bool) : Statement (.tInv6 sw) := by unfold Statement; revert sw; decide
theorem tBwd7 (sw : Bool) : Statement (.tBwd7 sw) := by unfold Statement; revert sw; decide
theorem tBwd8 (sw : Bool) : Statement (.tBwd8 sw) := by unfold Statement; revert sw; decide
theorem tInv9 (sw : Bool) : Statement (.tInv9 sw) := by unfold Statement; revert sw; decide
theorem tStay10 (sw : Bool) : Statement (.tStay10 sw) := by unfold Statement; revert sw; decide
theorem tFwd11 (sw : Bool) : Statement (.tFwd11 sw) := by unfold Statement; revert sw; decide
theorem tInv12 (sw : Bool) : Statement (.tInv12 sw) := by unfold Statement; revert sw; decide
theorem tFwd13 (sw : Bool) : Statement (.tFwd13 sw) := by unfold Statement; revert sw; decide
theorem tBwd14 (sw : Bool) : Statement (.tBwd14 sw) := by unfold Statement; revert sw; decide
theorem tStay15 (sw : Bool) : Statement (.tStay15 sw) := by unfold Statement; revert sw; decide
theorem applyNone : Statement .applyNone := by unfold Statement; decide
theorem applyRight : Statement .applyRight := by unfold Statement; decide
theorem applyLeft : Statement .applyLeft := by unfold Statement; decide

end Sys2Proof.Laws.EncodeFits
end

