-- ==== Sys2Proof/Laws/Step.lean ====
section
/-! SUPPORT. What a step can do: fetch, then `exec`. -/

namespace Sys2Proof.Machine

theorem step_of_none {s : State} (h : s.inputs = []) : step s = exec .idle s := by
  simp [step, fetch, h]

theorem step_of_decoded {s : State} {i : Input} {rest : List Input} {op : Instr} (h : s.inputs = i :: rest)
    (hd : decode s.cfg.hasPush i.fmt i.word = .ok op) :
    step s = exec op { s with inputs := rest, sel := i.inst } := by
  simp [step, fetch, h, hd]

/-- The same, where it is known what the configuration says of the button line. -/
theorem step_of_word {s : State} {i : Input} {rest : List Input} {op : Instr} {hasPush : Bool} (h : s.inputs = i :: rest)
    (hc : s.cfg.hasPush = hasPush) (hd : decode hasPush i.fmt i.word = .ok op) :
    step s = exec op { s with inputs := rest, sel := i.inst } :=
  step_of_decoded h (hc ▸ hd)

theorem step_of_rejected {s : State} {i : Input} {rest : List Input} {why : Reject} (h : s.inputs = i :: rest)
    (hd : decode s.cfg.hasPush i.fmt i.word = .error why) : step s = .refused (.undecodable why) := by
  simp [step, fetch, h, hd]

/-- A step that goes on is an operation that goes on, on a machine with the same configuration and the same instances. -/
theorem step_next {s t : State} (h : step s = .next t) :
    ∃ op u, u.cfg = s.cfg ∧ u.insts = s.insts ∧ exec op u = .next t := by
  cases hi : s.inputs with
  | nil => exact ⟨.idle, s, rfl, rfl, (step_of_none hi).symm.trans h⟩
  | cons i rest =>
    cases hd : decode s.cfg.hasPush i.fmt i.word with
    | error why => rw [step_of_rejected hi hd] at h; simp at h
    | ok op => exact ⟨op, { s with inputs := rest, sel := i.inst }, rfl, rfl, (step_of_decoded hi hd).symm.trans h⟩

end Sys2Proof.Machine
end

