-- ==== Sys2Proof/Laws/Runs.lean ====
section
/-! SUPPORT. Runs one operation at a time, and the frame of an operation. -/

namespace Sys2Proof.Machine

/-- Writing the instance selected keeps everything else. -/
theorem othersKept_setCur (s : State) (y : Decoder) : OthersKept s (s.setCur y) :=
  ⟨rfl, rfl, rfl, by simp, fun _ hk => State.setCur_other hk⟩

@[simp] theorem runOps_nil (s : State) : runOps [] s = some (s, []) := rfl

theorem runOps_cons {i : Instr} {s t : State} (h : exec i s = .next t) (rest : List Instr) :
    runOps (i :: rest) s = (runOps rest t).map fun r => (r.1, t.lastOutput :: r.2) := by
  simp [runOps, h]

/-- A run of one operation more, from the run of the rest. -/
theorem runOps_cons_some {i : Instr} {s t u : State} {y : Decoder} {os : List Output} {rest : List Instr}
    (h : exec i s = .next t) (hy : t.cur = some y) (hr : runOps rest t = some (u, os)) :
    runOps (i :: rest) s = some (u, y.out :: os) := by
  simp [runOps_cons h, hr, State.lastOutput_of_cur hy]

/-- A run that goes on is its first operation and the run of the rest. -/
theorem runOps_cons_inv {i : Instr} {s u : State} {os : List Output} {rest : List Instr}
    (h : runOps (i :: rest) s = some (u, os)) :
    ∃ t os', exec i s = .next t ∧ runOps rest t = some (u, os') ∧ os = t.lastOutput :: os' := by
  cases he : exec i s with
  | fault r => simp [runOps, he] at h
  | refused r => simp [runOps, he] at h
  | next t =>
    rw [runOps_cons he] at h
    obtain ⟨⟨u', os'⟩, hr, heq⟩ := Option.map_eq_some_iff.mp h
    simp only [Prod.mk.injEq] at heq
    exact ⟨t, os', rfl, by rw [hr, heq.1], heq.2.symm⟩

/-- A run of a machine of the host's interface, one step at a time. -/
theorem run_succ_of_step {M : Host.Core} {k : Nat} {s t : M.State} (h : M.step s = .next t) :
    M.run (k + 1) s = M.run k t := by
  simp [Host.Core.run, h]

theorem core_run_succ {k : Nat} {s t : State} (h : step s = .next t) : core.run (k + 1) s = core.run k t :=
  run_succ_of_step (M := core) h

end Sys2Proof.Machine
end

