-- ==== Sys2Proof/Tests/Slice0.lean ====
section
/-! SUPPORT. The model's own tests. Expected values come from the spec: "2.x", "P<n>" and "L1.x" are sections of 95_test_vectors.md, words are
written out from 30_encoding.md. The theorems `witness_<Name>` give states and operands that meet every hypothesis of `Obligations.<Name>`;
one for each of its clauses where it has several. -/

namespace Sys2Proof.Tests

open Sys2Proof.Machine

/-! ### Small machines -/

/-- The specified values, with PUSH_ACTIVE written out. -/
def cfgSpec : Config := ⟨.hold, 32, false, 32, true, 32, false, true⟩

/-- Everything attached, and an INVALID transition clears ACC. -/
def cfgFull : Config := ⟨.clear, 32, true, 32, true, 32, true, true⟩

/-- Everything attached, ACC held, PUSH_ACTIVE = 0. -/
def cfgHold : Config := ⟨.hold, 32, true, 32, true, 32, true, false⟩

/-- Nothing attached. -/
def cfgBare : Config := ⟨.hold, 32, false, 32, false, 32, false, true⟩

/-- An instance after its first INIT, with GRAY and ACC as given and the rest at 0. -/
def dec (gray : GrayIndex) (acc : AccWord) : Decoder := ⟨true, gray, acc, 0, 0, 0, false, false, Output.quiet⟩

/-- An instance before its first INIT. -/
def raw : Decoder := { dec 0b1001#4 0b0101#4 with live := false }

/-- A machine with these instances, the first selected. -/
def mach (c : Config) (xs : List Decoder) : State := ⟨c, xs, 0, []⟩

/-- The instance after an operation that goes on. -/
def after (o : Host.Outcome State Fault Refusal) : Option Decoder :=
  match o with
  | .next t => t.cur
  | .fault _ => none
  | .refused _ => none

/-- The reason of an operation that does not go on. -/
def stop (o : Host.Outcome State Fault Refusal) : Option Refusal :=
  match o with
  | .next _ => none
  | .fault _ => none
  | .refused r => some r

/-- What is shown of an instance in a test. -/
structure Shown where
  outWord : BitVec 4
  gray : GrayIndex
  acc : Int
  ticks : Nat
  pos : Int
  deriving DecidableEq, Repr

/-- What an operation that goes on shows. -/
def shown (o : Host.Outcome State Fault Refusal) : Option Shown :=
  (after o).map fun y => ⟨y.out.word, y.gray, y.acc.toInt, y.ticks, y.pos⟩

/-! ### Well-formedness -/

/-- Level 1 on a button line that is not there has no word: every kind of operation that carries the level is refused with HAS_PUSH = 0. -/
theorem test_wf_refuses_button_without_line :
    Instr.wf false (.init false false true) = false ∧ Instr.wf false (.sample true false true) = false ∧
    Instr.wf false (.tStay0 true) = false ∧ Instr.wf false (.tStay5 true) = false ∧
    Instr.wf false (.tStay10 true) = false ∧ Instr.wf false (.tStay15 true) = false ∧
    Instr.wf false (.tFwd2 true) = false ∧ Instr.wf false (.tFwd4 true) = false ∧
    Instr.wf false (.tFwd11 true) = false ∧ Instr.wf false (.tFwd13 true) = false ∧
    Instr.wf false (.tBwd1 true) = false ∧ Instr.wf false (.tBwd7 true) = false ∧
    Instr.wf false (.tBwd8 true) = false ∧ Instr.wf false (.tBwd14 true) = false ∧
    Instr.wf false (.tInv3 true) = false ∧ Instr.wf false (.tInv6 true) = false ∧
    Instr.wf false (.tInv9 true) = false ∧ Instr.wf false (.tInv12 true) = false := by decide

theorem test_wf_accepts :
    Instr.wf true (.sample true false true) = true ∧ Instr.wf false (.sample true false false) = true ∧
    Instr.wf false .idle = true ∧ Instr.wf false .applyLeft = true := by decide

/-- A register of no bits (R9). -/
theorem test_wf_refuses_widths :
    Config.wf { cfgSpec with tickW := 0 } = false ∧ Config.wf { cfgSpec with invW := 0 } = false ∧
    Config.wf { cfgSpec with posW := 0 } = false ∧ Config.wf cfgSpec = true := by decide

/-- A run that does not begin with INIT (R34, R164). -/
theorem test_wf_refuses_runs :
    runWf [.sample false false false] = false ∧ runWf [.idle, .init false false false] = false ∧ runWf [] = false ∧
    runWf [.init true true false, .idle] = true := by decide

/-! ### Words -/

/-- Format OP, `r e a b` (R77; 2.7): canonical words and the words that stand for the same. -/
theorem test_decode_op :
    decode false .op 0b1000#8 = .ok (.init false false false) ∧ decode false .op 0b1001#8 = .ok (.init false true false) ∧
    decode false .op 0b1110#8 = .ok (.init true false false) ∧ decode false .op 0b0100#8 = .ok (.sample false false false) ∧
    decode false .op 0b0101#8 = .ok (.sample false true false) ∧ decode false .op 0b0111#8 = .ok (.sample true true false) ∧
    decode false .op 0b0011#8 = .ok .idle := by decide

/-- The button level is bit 4 (R75). -/
theorem test_decode_op_button :
    decode true .op 0b11000#8 = .ok (.init false false true) ∧ decode true .op 0b10110#8 = .ok (.sample true false true) ∧
    decode true .op 0b10000#8 = .ok .idle := by decide

/-- Format GIDX, `PA PB CA CB` (R78). -/
theorem test_decode_stay_and_forward :
    decode false .gidx 0b0000#8 = .ok (.tStay0 false) ∧ decode false .gidx 0b0101#8 = .ok (.tStay5 false) ∧
    decode false .gidx 0b1010#8 = .ok (.tStay10 false) ∧ decode true .gidx 0b11111#8 = .ok (.tStay15 true) ∧
    decode false .gidx 0b0010#8 = .ok (.tFwd2 false) ∧ decode false .gidx 0b0100#8 = .ok (.tFwd4 false) ∧
    decode false .gidx 0b1011#8 = .ok (.tFwd11 false) ∧ decode true .gidx 0b11101#8 = .ok (.tFwd13 true) := by decide

theorem test_decode_backward_and_invalid :
    decode false .gidx 0b0001#8 = .ok (.tBwd1 false) ∧ decode false .gidx 0b0111#8 = .ok (.tBwd7 false) ∧
    decode false .gidx 0b1000#8 = .ok (.tBwd8 false) ∧ decode true .gidx 0b11110#8 = .ok (.tBwd14 true) ∧
    decode false .gidx 0b0011#8 = .ok (.tInv3 false) ∧ decode false .gidx 0b0110#8 = .ok (.tInv6 false) ∧
    decode false .gidx 0b1001#8 = .ok (.tInv9 false) ∧ decode true .gidx 0b11100#8 = .ok (.tInv12 true) := by decide

/-- Format STEP (R73, R83): 00 None, 01 Right, 11 Left; 10 is reserved (R79). -/
theorem test_decode_step :
    decode false .step 0b00#8 = .ok .applyNone ∧ decode false .step 0b01#8 = .ok .applyRight ∧
    decode false .step 0b11#8 = .ok .applyLeft ∧ decode false .step 0b10#8 = .error .reservedStepCode := by decide

/-- Bits that the format does not have (R75, R78, R83). -/
theorem test_decode_refuses_bits :
    decode false .op 0b10100#8 = .error .bitsBeyondFormat ∧ decode true .op 0b100100#8 = .error .bitsBeyondFormat ∧
    decode false .gidx 0b10000#8 = .error .bitsBeyondFormat ∧ decode true .gidx 0b1000000#8 = .error .bitsBeyondFormat ∧
    decode true .step 0b100#8 = .error .bitsBeyondFormat := by decide

/-- The encoder, against the canonical words of 2.7 and the rows' patterns. -/
theorem test_encode :
    encode (.init true false false) = (.op, 0xA#8) ∧ encode (.sample true true true) = (.op, 0x17#8) ∧
    encode .idle = (.op, 0x0#8) ∧ encode (.tBwd7 false) = (.gidx, 0x7#8) ∧ encode (.tInv12 true) = (.gidx, 0x1C#8) ∧
    encode .applyNone = (.step, 0x0#8) ∧ encode .applyRight = (.step, 0x1#8) ∧ encode .applyLeft = (.step, 0x3#8) := by decide

/-- Bare words of the table (notes/assumptions/11.md). -/
theorem test_decodeTableWord :
    decodeTableWord 8 0xB = some (.init true true false) ∧ decodeTableWord 8 0x4 = some (.sample false false false) ∧
    decodeTableWord 8 0x0 = some .idle ∧ decodeTableWord 4 0x6 = some (.sample true false false) ∧
    decodeTableWord 2 0x3 = some .applyLeft ∧ decodeTableWord 2 0x2 = none ∧ decodeTableWord 8 0x10 = none ∧
    decodeTableWord 8 0x104 = none := by decide

/-- The rows of the table tell every word of a format apart: no two match one word. -/
theorem test_rows_disjoint :
    opcodeRows.Pairwise (fun r q => r.format ≠ q.format ∨ (r.pattern &&& q.mask) ≠ (q.pattern &&& r.mask)) := by decide

/-- Listings: BWD from (0,1) is a SAMPLE of (1,1), and JUMP from there one of (0,0) (R82). -/
theorem test_assemble :
    assemble 1#2 [.bwd, .jump, .same, .fwd] =
      [.sample true true false, .sample false false false, .sample false false false, .sample true false false] := by decide

/-! ### One step each -/

/-- P7 line 4: INIT 0 1 from GRAY = 1101, ACC = +3. -/
theorem test_init : shown (exec (.init false true false) (mach cfgSpec [dec 0b1101#4 0b0011#4])) = some ⟨0x0#4, 0b0101#4, 0, 0, 0⟩ := by
  decide

/-- 2.6: INIT from registers of unspecified value; 2.9 line 9: with the button held. -/
theorem test_init_first :
    (after (exec (.init true false true) (mach cfgFull [raw]))).map (fun y => (y.live, y.gray, y.acc, y.swlast, y.push, y.out.pressed)) =
      some (true, 0b1010#4, 0#4, true, true, false) := by decide

/-- 2.4: GRAY = 0000, ACC forced to +5, S 1 1: out word 0xC, ACC 0, GRAY 0011. -/
theorem test_sample_out_of_range :
    shown (exec (.sample true true false) (mach cfgSpec [dec 0b0000#4 0b0101#4])) = some ⟨0xC#4, 0b0011#4, 0, 0, 0⟩ := by decide

/-- 2.9 line 2: the second of two equal samples moves PUSH, and `pressed` shows it when PUSH_ACTIVE = 1. -/
theorem test_sample_button :
    (after (exec (.sample false false true) (mach cfgFull [{ dec 0b0000#4 0#4 with swlast := true }]))).map
      (fun y => (y.swlast, y.push, y.out.pressed)) = some (true, true, true) := by decide

/-- P5 line 4: IDLE changes nothing. -/
theorem test_idle : shown (exec .idle (mach cfgSpec [dec 0b0101#4 0b0001#4])) = some ⟨0x0#4, 0b0101#4, 1, 0, 0⟩ := by decide

/-- P5 lines 1 and 3. -/
theorem test_stay :
    shown (exec (.tStay15 false) (mach cfgSpec [dec 0b1111#4 0#4])) = some ⟨0x0#4, 0b1111#4, 0, 0, 0⟩ ∧
    shown (exec (.tStay5 false) (mach cfgSpec [dec 0b1101#4 0b0001#4])) = some ⟨0x0#4, 0b0101#4, 1, 0, 0⟩ := by decide

/-- 2.2 rows 0 and 10, from the pairs' INIT. -/
theorem test_stay_2 :
    shown (exec (.tStay0 false) (mach cfgSpec [dec 0b0000#4 0#4])) = some ⟨0x0#4, 0b0000#4, 0, 0, 0⟩ ∧
    shown (exec (.tStay10 false) (mach cfgSpec [dec 0b1010#4 0#4])) = some ⟨0x0#4, 0b1010#4, 0, 0, 0⟩ := by decide

/-- L1.1 lines 1 to 4. -/
theorem test_forward :
    shown (exec (.tFwd2 false) (mach cfgSpec [dec 0b0000#4 0#4])) = some ⟨0x0#4, 0b0010#4, 1, 0, 0⟩ ∧
    shown (exec (.tFwd11 false) (mach cfgSpec [dec 0b0010#4 1#4])) = some ⟨0x0#4, 0b1011#4, 2, 0, 0⟩ ∧
    shown (exec (.tFwd13 false) (mach cfgSpec [dec 0b1011#4 2#4])) = some ⟨0x0#4, 0b1101#4, 3, 0, 0⟩ ∧
    shown (exec (.tFwd4 false) (mach cfgSpec [dec 0b1101#4 3#4])) = some ⟨0x1#4, 0b0100#4, 0, 1, 1⟩ := by decide

/-- L1.2 lines 1 to 4. -/
theorem test_backward :
    shown (exec (.tBwd1 false) (mach cfgSpec [dec 0b0000#4 0#4])) = some ⟨0x0#4, 0b0001#4, -1, 0, 0⟩ ∧
    shown (exec (.tBwd7 false) (mach cfgSpec [dec 0b0001#4 0b1111#4])) = some ⟨0x0#4, 0b0111#4, -2, 0, 0⟩ ∧
    shown (exec (.tBwd14 false) (mach cfgSpec [dec 0b0111#4 0b1110#4])) = some ⟨0x0#4, 0b1110#4, -3, 0, 0⟩ ∧
    shown (exec (.tBwd8 false) (mach cfgSpec [dec 0b1110#4 0b1101#4])) = some ⟨0x3#4, 0b1000#4, 0, 1, -1⟩ := by decide

/-- 2.3, the columns of INVALID: HOLD and CLEAR; P3 line 2. -/
theorem test_invalid :
    shown (exec (.tInv9 false) (mach cfgSpec [dec 0b0010#4 1#4])) = some ⟨0x4#4, 0b1001#4, 1, 0, 0⟩ ∧
    shown (exec (.tInv9 false) (mach cfgFull [dec 0b0010#4 1#4])) = some ⟨0x4#4, 0b1001#4, 0, 0, 0⟩ ∧
    shown (exec (.tInv3 false) (mach cfgSpec [dec 0b0000#4 0b1101#4])) = some ⟨0x4#4, 0b0011#4, -3, 0, 0⟩ ∧
    shown (exec (.tInv6 false) (mach cfgSpec [dec 0b0101#4 0#4])) = some ⟨0x4#4, 0b0110#4, 0, 0, 0⟩ ∧
    shown (exec (.tInv12 false) (mach cfgSpec [dec 0b1111#4 0#4])) = some ⟨0x4#4, 0b1100#4, 0, 0, 0⟩ := by decide

/-- 2.8: INVCNT wraps. -/
theorem test_invcnt_wraps :
    (after (exec (.sample true true false) (mach cfgFull [{ dec 0b0000#4 0#4 with invcnt := 0xFFFFFFFF }]))).map (fun y => y.invcnt) =
      some 0 := by decide

/-- 2.8: TICKS wraps with the Right of 2.3 (ACC +3, entry +1). -/
theorem test_ticks_wraps :
    shown (exec (.sample true false false) (mach cfgSpec [{ dec 0b0000#4 3#4 with ticks := 0xFFFFFFFF }])) =
      some ⟨0x1#4, 0b0010#4, 0, 0, 1⟩ := by decide

/-- 2.8, the rows of POS. -/
theorem test_apply :
    (after (exec .applyNone (mach cfgSpec [{ dec 0#4 0#4 with pos := 0x7FFFFFFF }]))).map (fun y => (y.posWord cfgSpec).toNat) =
      some 0x7FFFFFFF ∧
    (after (exec .applyLeft (mach cfgSpec [dec 0#4 0#4]))).map (fun y => (y.posWord cfgSpec).toNat) = some 0xFFFFFFFF := by decide

/-- 2.8: POS wraps either way. -/
theorem test_apply_wraps :
    (after (exec .applyRight (mach cfgSpec [{ dec 0#4 0#4 with pos := 0x7FFFFFFF }]))).map (fun y => y.pos) = some (-2147483648) ∧
    (after (exec .applyLeft (mach cfgSpec [{ dec 0#4 0#4 with pos := -2147483648 }]))).map (fun y => y.pos) = some 2147483647 := by decide

/-- The stops: before the first INIT (R34), a case of SAMPLE that is not selected (R78), APPLY without a PositionCounter (R125). -/
theorem test_stops :
    stop (exec (.sample true true false) (mach cfgSpec [raw])) = some .beforeInit ∧
    stop (exec (.tFwd13 false) (mach cfgSpec [dec 0b0000#4 0#4])) = some (.transitionNotSelected 0b1101#4) ∧
    stop (exec .applyRight (mach cfgBare [dec 0#4 0#4])) = some .positionCounterAbsent := by decide

/-- A step from reset with nothing issued is an IDLE; with the word 0x6 placed it is S 1 0 (L1.1 line 1). -/
theorem test_step :
    shown (step State.reset) = some ⟨0x0#4, 0b0000#4, 0, 0, 0⟩ ∧
    shown (step (State.reset.withFetchWord 8 0x6)) = some ⟨0x0#4, 0b0010#4, 1, 0, 0⟩ := by decide

/-- P6: the operation of instance 1 leaves instance 0. -/
theorem test_step_other_instance :
    (after (step { mach cfgSpec [dec 0b1101#4 3#4, dec 0b1010#4 0#4] with inputs := [inputOf 1 (.sample false false false)] })).map
      (fun y => (y.gray, y.acc.toInt)) = some (0b1000#4, -1) := by decide

/-! ### Witnesses -/

/-- Every hypothesis `s.cur = some x` and `x.live = true`, with each part of the configuration on and off. -/
theorem witness_live :
    ∀ c ∈ [cfgSpec, cfgFull, cfgHold, cfgBare], (mach c [dec 0b0000#4 0#4]).cur = some (dec 0b0000#4 0#4) ∧
      (dec 0b0000#4 0#4).live = true := by decide

theorem witness_ResetLeavesTheRegistersOfInit :
    [(⟨false, false, false⟩ : Levels), ⟨true, false, true⟩][1]? = some ⟨true, false, true⟩ ∧
    cfgFull.hasInvcnt = true ∧ cfgFull.hasPos = true ∧ cfgFull.hasPush = true := by decide

/-- With everything attached and with nothing attached, before and after the first INIT. -/
theorem witness_InitGivesTheResetRegisters :
    (mach cfgFull [raw]).cur = some raw ∧ (mach cfgBare [dec 0b1101#4 3#4]).cur = some (dec 0b1101#4 3#4) := by decide

theorem witness_InitForgetsTheEarlierState :
    (mach cfgFull [dec 0b1101#4 3#4]).cfg = (mach cfgFull [raw]).cfg ∧ (mach cfgFull [raw]).cur = some raw ∧
    (mach cfgFull [dec 0b1101#4 3#4]).cur = some (dec 0b1101#4 3#4) := by decide

theorem witness_IdleChangesNoRegister : (mach cfgSpec [raw]).cur = some raw := by decide

theorem witness_SampleStoresTheIndexItForms :
    (mach cfgSpec [dec 0b1101#4 0b0101#4]).cur = some (dec 0b1101#4 0b0101#4) ∧ (dec 0b1101#4 0b0101#4).live = true := by decide

theorem witness_GrayIsASixteenStateMachine :
    (mach cfgSpec [dec 0b1111#4 3#4]).cur = some (dec 0b1111#4 3#4) ∧ (dec 0b1111#4 3#4).live = true := by decide

/-- ACC at both ends of its range, under HOLD and CLEAR, with a SAMPLE that is INVALID and one that is not. -/
theorem witness_InvalidTransitionIsReportedAndAbsorbed :
    ∀ acc ∈ [3#4, 0b1101#4], ∀ c ∈ [cfgHold, cfgFull],
      (mach c [dec 0b0000#4 acc]).cur = some (dec 0b0000#4 acc) ∧ (dec 0b0000#4 acc).live = true ∧
      -3 ≤ (dec 0b0000#4 acc).acc.toInt ∧ (dec 0b0000#4 acc).acc.toInt ≤ 3 ∧ c.hasInvcnt = true ∧
      (after (exec (.sample true true false) (mach c [dec 0b0000#4 acc]))).map (fun y => y.out.inv) = some true ∧
      (after (exec (.sample true false false) (mach c [dec 0b0000#4 acc]))).map (fun y => y.out.inv) = some false := by decide

theorem witness_invalidAcc_both : cfgHold.invalidAcc = .hold ∧ cfgFull.invalidAcc = .clear := by decide

/-- The values beside the bounds: -4 and +4 are reported, -3 and +3 are not. -/
theorem witness_OutOfRangeAccumulatorIsCleared :
    ∀ p ∈ [(0b1100#4, true), (0b0100#4, true), (0b1101#4, false), (0b0011#4, false)],
      (mach cfgSpec [dec 0b0000#4 p.1]).cur = some (dec 0b0000#4 p.1) ∧ (dec 0b0000#4 p.1).live = true ∧
      (after (exec (.sample false false false) (mach cfgSpec [dec 0b0000#4 p.1]))).map (fun y => y.out.oor) = some p.2 := by decide

/-- The three tests: +3 and +1, -3 and -1, and the sums +3, 0, -3. -/
theorem witness_ContributionAddsWithoutOverflow :
    ∀ p ∈ [(3#4, true, false, 1, 4), (0b1101#4, false, true, -1, -4), (2#4, true, false, 1, 3), (0b1111#4, true, false, 1, 0),
        (0b1101#4, false, false, 0, -3)],
      (mach cfgSpec [dec 0b0000#4 p.1]).cur = some (dec 0b0000#4 p.1) ∧ (dec 0b0000#4 p.1).live = true ∧
      -3 ≤ (dec 0b0000#4 p.1).acc.toInt ∧ (dec 0b0000#4 p.1).acc.toInt ≤ 3 ∧
      entryVal? (lookup (sampleIndex (dec 0b0000#4 p.1).gray p.2.1 p.2.2.1)) = some p.2.2.2.1 ∧
      (dec 0b0000#4 p.1).acc.toInt + p.2.2.2.1 = p.2.2.2.2 := by decide

theorem witness_ForwardFullCycleEmitsRight :
    (mach cfgSpec [dec 0b0000#4 3#4]).cur = some (dec 0b0000#4 3#4) ∧ (dec 0b0000#4 3#4).live = true ∧
    -3 ≤ (dec 0b0000#4 3#4).acc.toInt ∧ (dec 0b0000#4 3#4).acc.toInt ≤ 3 ∧
    entryVal? (lookup (sampleIndex (dec 0b0000#4 3#4).gray true false)) = some 1 ∧ (dec 0b0000#4 3#4).acc.toInt + 1 = 4 := by decide

theorem witness_BackwardFullCycleEmitsLeft :
    (mach cfgSpec [dec 0b0000#4 0b1101#4]).cur = some (dec 0b0000#4 0b1101#4) ∧ (dec 0b0000#4 0b1101#4).live = true ∧
    -3 ≤ (dec 0b0000#4 0b1101#4).acc.toInt ∧ (dec 0b0000#4 0b1101#4).acc.toInt ≤ 3 ∧
    entryVal? (lookup (sampleIndex (dec 0b0000#4 0b1101#4).gray false true)) = some (-1) ∧
    (dec 0b0000#4 0b1101#4).acc.toInt + -1 = -4 := by decide

/-- The sums -3, 0 and +3. -/
theorem witness_MidCycleSumIsKept :
    ∀ p ∈ [(0b1101#4, false, false, 0), (0b1111#4, true, false, 1), (2#4, true, false, 1)],
      (mach cfgSpec [dec 0b0000#4 p.1]).cur = some (dec 0b0000#4 p.1) ∧ (dec 0b0000#4 p.1).live = true ∧
      -3 ≤ (dec 0b0000#4 p.1).acc.toInt ∧ (dec 0b0000#4 p.1).acc.toInt ≤ 3 ∧
      entryVal? (lookup (sampleIndex (dec 0b0000#4 p.1).gray p.2.1 p.2.2.1)) = some p.2.2.2 ∧
      -3 ≤ (dec 0b0000#4 p.1).acc.toInt + p.2.2.2 ∧ (dec 0b0000#4 p.1).acc.toInt + p.2.2.2 ≤ 3 := by decide

/-- A SAMPLE that emits a step. -/
theorem witness_ClassesAndStepsExcludeEachOther :
    ∃ t y, exec (.sample true false false) (mach cfgSpec [dec 0b0000#4 3#4]) = .next t ∧ t.cur = some y ∧ y.out.step ≠ .none :=
  ⟨_, _, rfl, rfl, by decide⟩

/-- A step and no step. -/
theorem witness_TicksCountEmittedSteps :
    (mach cfgSpec [dec 0b0000#4 3#4]).cur = some (dec 0b0000#4 3#4) ∧ (dec 0b0000#4 3#4).live = true ∧
    (after (exec (.sample true false false) (mach cfgSpec [dec 0b0000#4 3#4]))).map (fun y => y.out.step) = some .right ∧
    (after (exec (.sample false false false) (mach cfgSpec [dec 0b0000#4 3#4]))).map (fun y => y.out.step) = some .none := by decide

/-- INVCNT present, with `inv` = 1 and 0, and absent. -/
theorem witness_InvcntCountsInvalidTransitions :
    (mach cfgFull [dec 0b0000#4 0#4]).cur = some (dec 0b0000#4 0#4) ∧ (dec 0b0000#4 0#4).live = true ∧ cfgFull.hasInvcnt = true ∧
    (after (exec (.sample true true false) (mach cfgFull [dec 0b0000#4 0#4]))).map (fun y => y.out.inv) = some true ∧
    (after (exec (.sample true false false) (mach cfgFull [dec 0b0000#4 0#4]))).map (fun y => y.out.inv) = some false ∧
    (mach cfgBare [dec 0b0000#4 0#4]).cur = some (dec 0b0000#4 0#4) ∧ cfgBare.hasInvcnt = false := by decide

/-- Right, Left and None with a PositionCounter, and without one. -/
theorem witness_PositionFollowsTheStep :
    (mach cfgSpec [dec 0b0000#4 3#4]).cur = some (dec 0b0000#4 3#4) ∧ (dec 0b0000#4 3#4).live = true ∧ cfgSpec.hasPos = true ∧
    (after (exec (.sample true false false) (mach cfgSpec [dec 0b0000#4 3#4]))).map (fun y => y.out.step) = some .right ∧
    (after (exec (.sample false true false) (mach cfgSpec [dec 0b0000#4 0b1101#4]))).map (fun y => y.out.step) = some .left ∧
    (after (exec (.sample true true false) (mach cfgSpec [dec 0b0000#4 3#4]))).map (fun y => y.out.step) = some .none ∧
    (mach cfgBare [dec 0b0000#4 3#4]).cur = some (dec 0b0000#4 3#4) ∧ cfgBare.hasPos = false := by decide

/-- The button line with either level, either PUSH_ACTIVE, and absent. -/
theorem witness_ButtonIsDebounced :
    (mach cfgFull [dec 0b0000#4 0#4]).cur = some (dec 0b0000#4 0#4) ∧ (dec 0b0000#4 0#4).live = true ∧ cfgFull.hasPush = true ∧
    (mach cfgHold [dec 0b0000#4 0#4]).cur = some (dec 0b0000#4 0#4) ∧ cfgHold.hasPush = true ∧
    cfgHold.pushActive ≠ cfgFull.pushActive ∧ (dec 0b0000#4 0#4).swlast = false ∧ cfgBare.hasPush = false := by decide

/-- Each Step. -/
theorem witness_ApplyMovesOnlyThePosition :
    ∀ p ∈ [(Instr.applyNone, Step.none), (.applyRight, .right), (.applyLeft, .left)],
      p ∈ [(Instr.applyNone, Step.none), (.applyRight, .right), (.applyLeft, .left)] ∧
      (mach cfgSpec [dec 0b0000#4 0#4]).cur = some (dec 0b0000#4 0#4) ∧ (dec 0b0000#4 0#4).live = true ∧ cfgSpec.hasPos = true := by
  decide

/-- A row selected and a row not selected. -/
theorem witness_TransitionRowIsItsSample :
    (mach cfgSpec [dec 0b1101#4 0#4]).cur = some (dec 0b1101#4 0#4) ∧ (dec 0b1101#4 0#4).live = true ∧
    (dec 0b1101#4 0#4).gray.toNat % 4 = (0b0111#4 : GrayIndex).toNat / 4 ∧
    (dec 0b1101#4 0#4).gray.toNat % 4 ≠ (0b1101#4 : GrayIndex).toNat / 4 := by decide

/-- Each stay row, with ACC at both ends of its range. -/
theorem witness_StayRowsKeepTheCount :
    ∀ p ∈ [(Instr.tStay0 false, 0#4), (.tStay5 false, 5#4), (.tStay10 false, 10#4), (.tStay15 false, 15#4)], ∀ acc ∈ [3#4, 0b1101#4],
      (mach cfgSpec [dec p.2 acc]).cur = some (dec p.2 acc) ∧ (dec p.2 acc).live = true ∧
      (dec p.2 acc).gray.toNat % 4 = p.2.toNat / 4 ∧ -3 ≤ (dec p.2 acc).acc.toInt ∧ (dec p.2 acc).acc.toInt ≤ 3 := by decide

/-- Each forward row: GRAY before it, with ACC at +2 and +3 (its two clauses) and at -3. -/
theorem witness_ForwardRowsCountUp :
    ∀ p ∈ [(Instr.tFwd2 false, 2#4, 4#4), (.tFwd4 false, 4#4, 13#4), (.tFwd11 false, 11#4, 2#4), (.tFwd13 false, 13#4, 11#4)],
      ∀ acc ∈ [2#4, 3#4, 0b1101#4],
      (p.1, p.2.1) ∈ [(Instr.tFwd2 false, 2#4), (.tFwd4 false, 4#4), (.tFwd11 false, 11#4), (.tFwd13 false, 13#4)] ∧
      (mach cfgSpec [dec p.2.2 acc]).cur = some (dec p.2.2 acc) ∧ (dec p.2.2 acc).live = true ∧
      (dec p.2.2 acc).gray.toNat % 4 = p.2.1.toNat / 4 ∧ -3 ≤ (dec p.2.2 acc).acc.toInt ∧ (dec p.2.2 acc).acc.toInt ≤ 3 := by decide

/-- Each backward row: GRAY before it, with ACC at -2 and -3 (its two clauses) and at +3. -/
theorem witness_BackwardRowsCountDown :
    ∀ p ∈ [(Instr.tBwd1 false, 1#4, 8#4), (.tBwd7 false, 7#4, 1#4), (.tBwd8 false, 8#4, 14#4), (.tBwd14 false, 14#4, 7#4)],
      ∀ acc ∈ [0b1110#4, 0b1101#4, 3#4],
      (p.1, p.2.1) ∈ [(Instr.tBwd1 false, 1#4), (.tBwd7 false, 7#4), (.tBwd8 false, 8#4), (.tBwd14 false, 14#4)] ∧
      (mach cfgSpec [dec p.2.2 acc]).cur = some (dec p.2.2 acc) ∧ (dec p.2.2 acc).live = true ∧
      (dec p.2.2 acc).gray.toNat % 4 = p.2.1.toNat / 4 ∧ -3 ≤ (dec p.2.2 acc).acc.toInt ∧ (dec p.2.2 acc).acc.toInt ≤ 3 := by decide

/-- Each INVALID row, under HOLD and CLEAR, with ACC at both ends. -/
theorem witness_InvalidRowsAreAbsorbed :
    ∀ p ∈ [(Instr.tInv3 false, 3#4, 0#4), (.tInv6 false, 6#4, 5#4), (.tInv9 false, 9#4, 10#4), (.tInv12 false, 12#4, 15#4)],
      ∀ acc ∈ [3#4, 0b1101#4], ∀ c ∈ [cfgHold, cfgFull],
      (p.1, p.2.1) ∈ [(Instr.tInv3 false, 3#4), (.tInv6 false, 6#4), (.tInv9 false, 9#4), (.tInv12 false, 12#4)] ∧
      (mach c [dec p.2.2 acc]).cur = some (dec p.2.2 acc) ∧ (dec p.2.2 acc).live = true ∧
      (dec p.2.2 acc).gray.toNat % 4 = p.2.1.toNat / 4 ∧ -3 ≤ (dec p.2.2 acc).acc.toInt ∧ (dec p.2.2 acc).acc.toInt ≤ 3 ∧
      c.hasInvcnt = true := by decide

theorem witness_RepeatedPairIsIdempotent :
    (mach cfgSpec [dec 0b0000#4 3#4]).cur = some (dec 0b0000#4 3#4) ∧ (dec 0b0000#4 3#4).live = true ∧ 0 < 2 := by decide

/-- The first part with ACC at its ends, under HOLD; the second from ACC = +5, where OutOfRangeAccumulator is reported. -/
theorem witness_AnomaliesAreRecoveredFrom :
    (∀ acc ∈ [3#4, 0b1101#4], (mach cfgHold [dec 0b0000#4 acc]).cur = some (dec 0b0000#4 acc) ∧ (dec 0b0000#4 acc).live = true ∧
      -3 ≤ (dec 0b0000#4 acc).acc.toInt ∧ (dec 0b0000#4 acc).acc.toInt ≤ 3 ∧ cfgHold.invalidAcc = .hold) ∧
    (mach cfgSpec [dec 0b0000#4 5#4]).cur = some (dec 0b0000#4 5#4) ∧ (dec 0b0000#4 5#4).live = true ∧
    (after (exec (.sample true true false) (mach cfgSpec [dec 0b0000#4 5#4]))).map (fun y => y.out.oor) = some true := by decide

theorem witness_SamplesResynchroniseAfterInvalid :
    (mach cfgSpec [dec 0b0000#4 0#4]).cur = some (dec 0b0000#4 0#4) ∧ (dec 0b0000#4 0#4).live = true ∧
    lookup (sampleIndex (dec 0b0000#4 0#4).gray true true) = .invalid ∧ (true = true ∨ false = true) := by decide

/-- A path with forward and backward edges and a stay, from ACC = +3. -/
theorem witness_EdgesAndStepsObeyTheCountingLaw :
    (mach cfgSpec [dec 0b0000#4 3#4]).cur = some (dec 0b0000#4 3#4) ∧ (dec 0b0000#4 3#4).live = true ∧
    -3 ≤ (dec 0b0000#4 3#4).acc.toInt ∧ (dec 0b0000#4 3#4).acc.toInt ≤ 3 ∧
    entriesAlong (storedPair (dec 0b0000#4 3#4).gray) [(true, false), (true, true), (true, true), (true, false)] =
      [.plus, .plus, .zero, .minus] := by decide

theorem witness_PureWalksEmitOneStepInFour :
    (mach cfgSpec [dec 0b1101#4 0#4]).cur = some (dec 0b1101#4 0#4) ∧ (dec 0b1101#4 0#4).live = true ∧ (dec 0b1101#4 0#4).acc = 0#4 := by
  decide

theorem witness_StepsAreFourSamplesApart :
    ∃ t y, exec (.sample true false false) (mach cfgSpec [dec 0b0000#4 3#4]) = .next t ∧ t.cur = some y ∧ y.out.step ≠ .none ∧
      [(true, true), (false, true), (false, false)].length ≤ 3 :=
  ⟨_, _, rfl, rfl, by decide, by decide⟩

/-- Two instances, one with ACC at +3 and its counters at the top of their range. -/
theorem witness_InvariantIsKeptByEveryStep :
    State.Inv (mach cfgFull [{ dec 0b0000#4 3#4 with ticks := 0xFFFFFFFF, invcnt := 0xFFFFFFFF, pos := 0x7FFFFFFF }, raw]) ∧
    ∃ t, step (mach cfgFull [{ dec 0b0000#4 3#4 with ticks := 0xFFFFFFFF, invcnt := 0xFFFFFFFF, pos := 0x7FFFFFFF }, raw]) = .next t :=
  ⟨by decide, _, rfl⟩

theorem witness_PositionAndTicksCountTheRun :
    (mach cfgSpec [raw]).cur = some raw ∧ cfgSpec.hasPos = true ∧
    ∀ i ∈ [Instr.sample true false false, .idle], i = .idle ∨ ∃ a b sw, i = Instr.sample a b sw :=
  ⟨by decide, by decide, by simp⟩

theorem witness_SwappedLinesExchangeRightAndLeft :
    (mach cfgSpec [dec 0b0010#4 3#4]).cur = some (dec 0b0010#4 3#4) ∧ (dec 0b0010#4 3#4).live = true ∧
    (mach cfgSpec [dec 0b0001#4 0b1101#4]).cur = some (dec 0b0001#4 0b1101#4) ∧ (dec 0b0001#4 0b1101#4).live = true ∧
    -3 ≤ (dec 0b0010#4 3#4).acc.toInt ∧ (dec 0b0010#4 3#4).acc.toInt ≤ 3 ∧
    (dec 0b0001#4 0b1101#4).acc.toInt = -(dec 0b0010#4 3#4).acc.toInt ∧
    storedPair (dec 0b0001#4 0b1101#4).gray = swapPair (storedPair (dec 0b0010#4 3#4).gray) := by decide

theorem witness_IdlesHaveNoLaterEffect :
    (mach cfgSpec [dec 0b0000#4 0#4]).cur = some (dec 0b0000#4 0#4) ∧
    (runOps [.idle, .sample true false false, .idle] (mach cfgSpec [dec 0b0000#4 0#4])).isSome = true := by decide

theorem witness_EveryOperationIsDefinedAfterInit :
    (mach cfgSpec [dec 0b0110#4 5#4]).cur = some (dec 0b0110#4 5#4) ∧ (dec 0b0110#4 5#4).live = true ∧
    Instr.sample true false false ∈ [Instr.init true false false, .sample true false false, .idle] ∧
    (mach cfgSpec [dec 0b0110#4 5#4, raw]).cfg = (mach cfgSpec [dec 0b0110#4 5#4]).cfg ∧
    (mach cfgSpec [dec 0b0110#4 5#4, raw]).cur = some (dec 0b0110#4 5#4) := by decide

/-- Before the first INIT; after it without a PositionCounter. -/
theorem witness_OperationsWithoutMeaningStopByName :
    ((mach cfgSpec [raw]).cur = some raw ∧ raw.live = false ∧ (∀ a b sw, Instr.applyLeft ≠ .init a b sw) ∧ Instr.applyLeft ≠ .idle) ∧
    (mach cfgBare [dec 0#4 0#4]).cur = some (dec 0#4 0#4) ∧ (dec 0#4 0#4).live = true ∧ cfgBare.hasPos = false ∧
    Instr.applyRight ∈ [Instr.applyNone, .applyRight, .applyLeft] := by decide

/-- The second state has another instance beside it and something issued. -/
theorem witness_InstancesAreIndependent :
    ∃ t, exec (.sample true false false) (mach cfgSpec [dec 0b0000#4 3#4]) = .next t ∧
      (mach cfgSpec [dec 0b0000#4 3#4, raw]).cfg = (mach cfgSpec [dec 0b0000#4 3#4]).cfg ∧
      (mach cfgSpec [dec 0b0000#4 3#4, raw]).cur = (mach cfgSpec [dec 0b0000#4 3#4]).cur :=
  ⟨_, rfl, by decide, by decide⟩

theorem witness_InterleavingOfInstancesDoesNotMatter :
    ∃ m t, (0 : Nat) ≠ 1 ∧ Instr.wf false (.sample true false false) = true ∧ Instr.wf false (.init true true false) = true ∧
      step { mach cfgSpec [dec 0b0000#4 3#4, raw] with
        inputs := [inputOf 0 (.sample true false false), inputOf 1 (.init true true false)] } = .next m ∧ step m = .next t :=
  ⟨_, _, by decide, by decide, by decide, rfl, rfl⟩

theorem witness_OlderPairIsNeverRead :
    ∃ t, exec (.sample true false false) (mach cfgSpec [dec 0b0000#4 3#4]) = .next t ∧
      (mach cfgSpec [dec 0b0000#4 3#4]).cur = some (dec 0b0000#4 3#4) ∧
      storedPair 0b1100#4 = storedPair (dec 0b0000#4 3#4).gray ∧
      (mach cfgSpec [dec 0b1100#4 3#4]).cur = some { dec 0b0000#4 3#4 with gray := 0b1100#4 } :=
  ⟨_, rfl, by decide, by decide, by decide⟩

/-- Another configuration, other counters, another level of the button line. -/
theorem witness_CountersNeverFeedBack :
    ∃ t y, exec (.sample true false false) (mach cfgBare [dec 0b0000#4 3#4]) = .next t ∧ t.cur = some y ∧
      cfgHold.invalidAcc = cfgBare.invalidAcc ∧ (mach cfgBare [dec 0b0000#4 3#4]).cur = some (dec 0b0000#4 3#4) ∧
      (mach cfgHold [{ dec 0b1000#4 3#4 with ticks := 7, pos := -2 }]).cur = some { dec 0b1000#4 3#4 with ticks := 7, pos := -2 } ∧
      storedPair 0b1000#4 = storedPair (dec 0b0000#4 3#4).gray :=
  ⟨_, _, rfl, rfl, by decide, by decide, by decide, by decide⟩

theorem witness_ConfigurationNeverChanges :
    (∃ t, step (mach cfgSpec [dec 0b0000#4 3#4]) = .next t) ∧ (mach cfgSpec [dec 0b0000#4 3#4]).insts[0]? = some (dec 0b0000#4 3#4) ∧
    (dec 0b0000#4 3#4).live = true :=
  ⟨⟨_, rfl⟩, by decide, by decide⟩

theorem witness_EveryGrayValueIsReached : (mach cfgSpec [raw]).cur = some raw := by decide

theorem witness_StepRunsTheDecodedOperation :
    ({ mach cfgSpec [raw] with inputs := [⟨0, .op, 0xC#8⟩] } : State).inputs = ⟨0, .op, 0xC#8⟩ :: [] ∧
    decode cfgSpec.hasPush .op 0xC#8 = .ok (.init false false false) ∧ (mach cfgSpec [raw]).inputs = [] := by decide

theorem witness_IssuedOperationsRunInOrder :
    (mach cfgSpec [raw]).inputs = [] ∧
    (∀ i ∈ [Instr.init false false false, .sample true false false], i.wf cfgSpec.hasPush = true) ∧
    (runOps [.init false false false, .sample true false false] (mach cfgSpec [raw])).isSome = true := by decide

/-- A bit beyond the format, with and without the button line, and the reserved code. -/
theorem witness_ReservedWordsStopByName :
    (0x10#8 : Byte) &&& Format.op.bitsBeyond cfgSpec.hasPush ≠ 0#8 ∧ (0x20#8 : Byte) &&& Format.gidx.bitsBeyond cfgFull.hasPush ≠ 0#8 ∧
    ({ mach cfgSpec [raw] with inputs := [⟨0, .op, 0x10#8⟩] } : State).inputs = ⟨0, .op, 0x10#8⟩ :: [] ∧
    ({ mach cfgSpec [raw] with inputs := [⟨0, .step, 0b10#8⟩] } : State).inputs = ⟨0, .step, 0b10#8⟩ :: [] := by decide

theorem witness_DecodeOfEncodeIsTheOperation :
    Instr.wf true (.init true false true) = true ∧ Instr.wf false (.tInv9 false) = true ∧ Instr.wf false .applyLeft = true := by decide

theorem witness_DecoderFollowsTheOpcodeTable :
    decode false .op 0x6#8 = .ok (.sample true false false) ∧ decode true .gidx 0x1C#8 = .ok (.tInv12 true) ∧
    decode false .step 0x3#8 = .ok .applyLeft := by decide

/-- Each choice of the pins. -/
theorem witness_PinsShowTheOutputsOfTheEdge :
    (mach cfgFull [dec 0b0000#4 3#4]).cur = some (dec 0b0000#4 3#4) ∧ (dec 0b0000#4 3#4).live = true ∧
    opOfLevels true true false false false = .init false false false ∧ opOfLevels false true true false true = .sample true false true ∧
    opOfLevels false false true true false = .idle := by decide

end Sys2Proof.Tests
end

section
/-! SUPPORT. The TransitionTable: the entry of each of the four kinds of transition (20_memory.md R41), and from it the sixteen entries. -/

namespace Sys2Proof.Machine

/-- A stay, where neither line changes (R41 item 1). -/
@[simp] theorem lookup_indexOf_self (p : Pair) : lookup (indexOf p p) = .zero := by
  revert p; decide

/-- A jump, where both lines change (R41 item 2). -/
@[simp] theorem lookup_indexOf_jumpPair (p : Pair) : lookup (indexOf p (jumpPair p)) = .invalid := by
  revert p; decide

/-- An edge of the forward cycle, Scenario 1 (R41 item 3, R42). -/
@[simp] theorem lookup_indexOf_forwardPair (p : Pair) : lookup (indexOf p (forwardPair p)) = .plus := by
  revert p; decide

/-- An edge of the backward cycle, Scenario 2 (R41 item 4, R43). -/
@[simp] theorem lookup_indexOf_backwardPair (p : Pair) : lookup (indexOf p (backwardPair p)) = .minus := by
  revert p; decide

/-- Settles O25: each index is the transition of its kind from its previous pair, (0,0) for TT[0] to TT[3] and (0,1) for TT[4] to TT[7]. -/
theorem tableEntriesZeroToSeven : Obligations.TableEntriesZeroToSeven :=
  ⟨lookup_indexOf_self 0b00#2, lookup_indexOf_backwardPair 0b00#2, lookup_indexOf_forwardPair 0b00#2, lookup_indexOf_jumpPair 0b00#2,
    lookup_indexOf_forwardPair 0b01#2, lookup_indexOf_self 0b01#2, lookup_indexOf_jumpPair 0b01#2, lookup_indexOf_backwardPair 0b01#2⟩

/-- Settles O26: each index is the transition of its kind from its previous pair, (1,0) for TT[8] to TT[11] and (1,1) for TT[12] to TT[15]. -/
theorem tableEntriesEightToFifteen : Obligations.TableEntriesEightToFifteen :=
  ⟨lookup_indexOf_backwardPair 0b10#2, lookup_indexOf_jumpPair 0b10#2, lookup_indexOf_self 0b10#2, lookup_indexOf_forwardPair 0b10#2,
    lookup_indexOf_jumpPair 0b11#2, lookup_indexOf_forwardPair 0b11#2, lookup_indexOf_backwardPair 0b11#2, lookup_indexOf_self 0b11#2⟩

end Sys2Proof.Machine
end

section
/-! SUPPORT. The operations after the first INIT (40_quadrature_decoder.md R95): an operation whose change can be taken goes on and leaves
its decoder changed so, and no change undoes the first INIT. -/

namespace Sys2Proof.Machine

/-- INIT, SAMPLE and IDLE meet no bar on a decoder after its first INIT. -/
theorem changeOf_takes_of_live {x : Decoder} (hl : x.live = true) (c : Config) {a b sw : Bool} {i : Instr}
    (hi : i ∈ [Instr.init a b sw, .sample a b sw, .idle]) : (changeOf x i).takes c x := by
  simp only [List.mem_cons, List.not_mem_nil, or_false] at hi
  obtain rfl | rfl | rfl := hi
  case inl => exact trivial
  case inr.inl => exact ⟨hl, (earlierPair_sampleIndex _ _ _).symm⟩
  case inr.inr => exact trivial

/-- After the first INIT a decoder stays one after it, whatever happens to it. -/
theorem Change.apply_live {x : Decoder} (hl : x.live = true) (c : Config) (ch : Change) : (ch.apply c x).live = true := by
  cases ch with
  | inits a b sw => exact initDecoder_live x c a b sw
  | samples idx sw => exact (sampleDecoder_live x c sw idx).trans hl
  | idles => exact (idleDecoder_live x).trans hl
  | applies st => exact (applyDecoder_live x c st).trans hl

/-- What becomes of the decoder is the change the operation stands for, a function of the decoder and the configuration alone. -/
theorem exec_cur_of_takes {i : Instr} {s : State} {x : Decoder} (h : s.cur = some x)
    (ht : (changeOf x i).takes s.cfg x) :
    ∃ t, exec i s = .next t ∧ t.cur = some ((changeOf x i).apply s.cfg x) :=
  ⟨_, exec_of_takes h ht, State.cur_setCur h _⟩

/-- Settles O41: the decoder after the operation is the change it stands for, which the second state, of the same configuration and
with the same decoder, takes too. -/
theorem everyOperationIsDefinedAfterInit : Obligations.EveryOperationIsDefinedAfterInit := by
  intro s x a b sw i hc hl hi
  have takes (c : Config) : (changeOf x i).takes c x := changeOf_takes_of_live hl c hi
  obtain ⟨t, he, ht⟩ := exec_cur_of_takes hc (takes s.cfg)
  refine ⟨t, (changeOf x i).apply s.cfg x, he, ht, Change.apply_live hl s.cfg _, fun s' hcfg hc' => ?_⟩
  rw [← hcfg]
  exact exec_cur_of_takes hc' (takes s'.cfg)

end Sys2Proof.Machine
end

section
/-! SUPPORT. The index a SAMPLE forms, as a number and by its low bits (41_gray_state_machine.md R100), from its two pairs. -/

namespace Sys2Proof.Machine

/-- The previous pair is the high digit to the base 4, the current pair the low one (30_encoding.md R71). -/
theorem toNat_indexOf (p c : Pair) : (indexOf p c).toNat = p.toNat * 4 + c.toNat := by
  revert p c; decide

@[simp] theorem toNat_storedPair (g : GrayIndex) : (storedPair g).toNat = g.toNat % 4 := by
  simp [storedPair]

/-- The bits of the stored pair are the low bits of GRAY (10_state.md R22). -/
theorem getLsbD_storedPair (g : GrayIndex) {k : Nat} (hk : k < 2) :
    (storedPair g).getLsbD k = g.getLsbD k := by
  simp [storedPair, hk]

@[simp] theorem toNat_pairCode (a b : Bool) : (pairCode a b).toNat = 2 * a.toNat + b.toNat := by
  revert a b; decide

/-- In a pair, `a` stands above `b`. -/
theorem getLsbD_pairCode (a b : Bool) : (pairCode a b).getLsbD 1 = a ∧ (pairCode a b).getLsbD 0 = b := by
  revert a b; decide

/-- The number of the index: the stored pair and the levels sampled, written one after the other. -/
theorem toNat_sampleIndex (g : GrayIndex) (a b : Bool) :
    (sampleIndex g a b).toNat = g.toNat % 4 * 4 + 2 * a.toNat + b.toNat :=
  calc (sampleIndex g a b).toNat
      = (storedPair g).toNat * 4 + (pairCode a b).toNat := toNat_indexOf _ _
    _ = g.toNat % 4 * 4 + 2 * a.toNat + b.toNat := by
      rw [toNat_storedPair, toNat_pairCode, Nat.add_assoc]

/-- The two low bits of the index are the levels sampled. -/
theorem getLsbD_sampleIndex (g : GrayIndex) (a b : Bool) :
    (sampleIndex g a b).getLsbD 1 = a ∧ (sampleIndex g a b).getLsbD 0 = b := by
  rw [← getLsbD_storedPair _ Nat.one_lt_two, ← getLsbD_storedPair _ Nat.two_pos, storedPair_sampleIndex]
  exact getLsbD_pairCode a b

/-- Settles O6: the decoder after the SAMPLE holds in GRAY the index formed, whatever the entry at it and whatever ACC. -/
theorem sampleStoresTheIndexItForms : Obligations.SampleStoresTheIndexItForms := by
  intro s x a b sw hc hl
  exact ⟨_, _, exec_sample hc hl a b sw, State.cur_setCur hc _, toNat_sampleIndex x.gray a b, getLsbD_sampleIndex x.gray a b⟩

end Sys2Proof.Machine
end

section
/-! SUPPORT. Recovery from the two error classes (60_exceptions.md R147): runs of INVALID transitions, and the SAMPLE after a SAMPLE. -/

namespace Sys2Proof.Machine

/-- SAMPLE of a pair is judged as the transition from the stored pair to it. -/
theorem exec_samplePair {s : State} {x : Decoder} (h : s.cur = some x) (hl : x.live = true) (p : Pair) :
    exec (samplePair p) s = .next (s.setCur (sampleDecoder s.cfg (indexOf (storedPair x.gray) p) false x)) := by
  rw [samplePair, exec_sample h hl, sampleIndex, pairCode_pairLevels]

/-- An INVALID transition is reported, whatever ACC. -/
theorem sampleDecoder_inv_of_invalid {idx : GrayIndex} (h : lookup idx = .invalid) (c : Config) (sw : Bool) (x : Decoder) :
    (sampleDecoder c idx sw x).out.inv = true :=
  (isInvalid_iff _).mpr h

/-- ESD emits nothing on an INVALID entry, whatever ACC. -/
theorem detect_invalid_step (p : InvalidAcc) (acc : AccWord) : (detect p acc .invalid).step = .none := by
  by_contra hn
  exact (detect_step_emitted p acc .invalid hn).1 rfl

/-- An INVALID transition emits nothing, whatever ACC. -/
theorem sampleDecoder_step_of_invalid {idx : GrayIndex} (h : lookup idx = .invalid) (c : Config) (sw : Bool) (x : Decoder) :
    (sampleDecoder c idx sw x).out.step = .none := by
  rw [sampleDecoder_out, sampleOutputs_step, h, detect_invalid_step]

/-- Under HOLD an accumulator in range waits through an INVALID transition. -/
theorem sampleDecoder_acc_of_invalid_hold {c : Config} {idx : GrayIndex} {x : Decoder} (h : lookup idx = .invalid)
    (hacc : accLegal x.acc = true) (hold : c.invalidAcc = .hold) (sw : Bool) : (sampleDecoder c idx sw x).acc = x.acc := by
  rw [sampleDecoder_acc, h, detect_invalid hacc, hold, accAfterInvalid]

/-- After any SAMPLE the accumulator is in range. -/
theorem accLegal_sampleDecoder (c : Config) (idx : GrayIndex) (sw : Bool) (x : Decoder) :
    accLegal (sampleDecoder c idx sw x).acc = true :=
  (accLegal_iff _).mpr (detect_acc_range _ _ _)

/-- A SAMPLE reports OutOfRangeAccumulator exactly when it meets an accumulator out of range. -/
theorem sampleDecoder_oor (c : Config) (idx : GrayIndex) (sw : Bool) (x : Decoder) :
    (sampleDecoder c idx sw x).out.oor = !accLegal x.acc := by
  have := accLegal_iff x.acc
  rw [sampleDecoder_out, sampleOutputs_oor, Bool.eq_iff_iff, detect_oor_iff, Bool.not_eq_true', ← Bool.not_eq_true, this]
  omega

/-- A SAMPLE that reports OutOfRangeAccumulator leaves ACC at 0. -/
theorem sampleDecoder_acc_of_oor {c : Config} {idx : GrayIndex} {sw : Bool} {x : Decoder}
    (h : (sampleDecoder c idx sw x).out.oor = true) : (sampleDecoder c idx sw x).acc = 0#4 := by
  rw [sampleDecoder_oor, Bool.not_eq_true'] at h
  rw [sampleDecoder_acc, detect_outOfRange h]

/-- The index of the SAMPLE after a SAMPLE is the pairs of the two, written one after the other. -/
theorem sampleIndex_sampleIndex (g : GrayIndex) (a b a' b' : Bool) :
    sampleIndex (sampleIndex g a b) a' b' =
      (BitVec.ofBool a ++ BitVec.ofBool b ++ BitVec.ofBool a' ++ BitVec.ofBool b' : BitVec 4) := by
  rw [sampleIndex, storedPair_sampleIndex]
  revert a b a' b'; decide

/-- A listing of jumps alone, from any stored pair: each SAMPLE stores the pair the next jump is from, and leaves ACC in range. -/
theorem runOps_jumps (n : Nat) {s : State} {x : Decoder} (hc : s.cur = some x) (hl : x.live = true)
    (hacc : accLegal x.acc = true) :
    ∃ u os y, runOps (assemble (storedPair x.gray) (List.replicate n .jump)) s = some (u, os) ∧ u.cur = some y ∧
      os.length = n ∧ (∀ o ∈ os, o.inv = true ∧ o.step = .none) ∧ (s.cfg.invalidAcc = .hold → y.acc = x.acc) := by
  induction n generalizing s x with
  | zero => exact ⟨s, [], x, rfl, hc, rfl, by simp, fun _ => rfl⟩
  | succ n ih =>
    let p := storedPair x.gray
    let y := sampleDecoder s.cfg (indexOf p (jumpPair p)) false x
    have hjump : lookup (indexOf p (jumpPair p)) = .invalid := lookup_indexOf_jumpPair p
    have hstored : storedPair y.gray = jumpPair p := storedPair_indexOf _ _
    have hy : (s.setCur y).cur = some y := State.cur_setCur hc y
    obtain ⟨u, os, z, hrun, hz, hlen, hos, hhold⟩ := ih hy hl (accLegal_sampleDecoder _ _ _ _)
    rw [hstored] at hrun
    refine ⟨u, y.out :: os, z, runOps_cons_some (exec_samplePair hc hl _) hy hrun, hz, by simp [hlen],
      List.forall_mem_cons.mpr ⟨⟨sampleDecoder_inv_of_invalid hjump _ _ _, sampleDecoder_step_of_invalid hjump _ _ _⟩, hos⟩,
      fun hold => ?_⟩
    calc z.acc = y.acc := hhold hold
      _ = x.acc := sampleDecoder_acc_of_invalid_hold hjump hacc hold _

/-- Settles O32: the first part by induction on the number of jumps; the second because a SAMPLE stores its pair and leaves ACC in
range. -/
theorem anomaliesAreRecoveredFrom : Obligations.AnomaliesAreRecoveredFrom := by
  refine ⟨fun s x n hc hl hlo hhi => runOps_jumps n hc hl ((accLegal_iff _).mpr ⟨hlo, hhi⟩),
    fun s x a b a' b' sw sw' hc hl => ?_⟩
  let y := sampleDecoder s.cfg (sampleIndex x.gray a b) sw x
  have hy : (s.setCur y).cur = some y := State.cur_setCur hc y
  have hoor (idx : GrayIndex) : (sampleDecoder s.cfg idx sw' y).out.oor = false := by
    rw [sampleDecoder_oor, accLegal_sampleDecoder, Bool.not_true]
  exact ⟨_, y, _, _, exec_sample hc hl a b sw, hy, exec_sample hy hl a' b' sw', State.cur_setCur hy _,
    sampleIndex_sampleIndex x.gray a b a' b', sampleDecoder_acc_of_oor, hoor _⟩

end Sys2Proof.Machine
end

section
/-! SUPPORT. The invariant (42_encoder_step_detector.md section 4): reset meets it, every change of a decoder keeps its two halves, and so
every step keeps it. -/

namespace Sys2Proof.Machine

/-- Reset meets the two halves of the invariant. -/
theorem Decoder.reset_invariant (c : Config) (l : Levels) :
    Decoder.inWidth c (Decoder.reset c l) ∧ Decoder.inCycle (Decoder.reset c l) := by
  have hpos (w : Nat) : (0 : Int) < 2 ^ w := by positivity
  have hrange : -2 ^ c.posW ≤ 2 * (0 : Int) ∧ 2 * (0 : Int) < 2 ^ c.posW := by
    have := hpos c.posW
    omega
  exact ⟨⟨Nat.two_pow_pos _, Nat.two_pow_pos _, hrange⟩, ⟨⟨by simp [Decoder.reset], by simp [Decoder.reset]⟩, rfl,
    fun h => absurd rfl h, fun h => absurd h (by simp [Decoder.reset])⟩⟩

theorem State.resetFor_inv (c : Config) (lines : List Levels) : (State.resetFor c lines).Inv := by
  intro x hx
  obtain ⟨l, -, rfl⟩ := List.mem_map.mp hx
  exact ⟨(Decoder.reset_invariant c l).1, fun _ => (Decoder.reset_invariant c l).2⟩

/-- Settles O2: each decoder of a machine after reset is a reset one. -/
theorem resetMeetsTheInvariant : Obligations.ResetMeetsTheInvariant :=
  ⟨State.resetFor_inv, State.resetFor_inv _ _⟩

/-- Every change keeps the counters in their widths: what it writes to one is 0, or has wrapped. -/
theorem Change.apply_inWidth {c : Config} {x : Decoder} (h : Decoder.inWidth c x) (ch : Change) :
    Decoder.inWidth c (ch.apply c x) := by
  obtain ⟨hticks, hinv, hpos⟩ := h
  cases ch with
  | inits a b sw =>
    obtain ⟨⟨hticks0, hinv0, hpos0⟩, -⟩ := Decoder.reset_invariant c ⟨a, b, sw⟩
    refine ⟨hticks0, ?_, ?_⟩
    · simp only [Change.apply, initDecoder_invcnt]
      split
      · exact hinv0
      · exact hinv
    · simp only [Change.apply, initDecoder_pos]
      split
      · exact hpos0
      · exact hpos
  | samples idx sw =>
    refine ⟨ticksAfter_lt hticks _, ?_, ?_⟩
    · simp only [Change.apply, sampleDecoder_invcnt]
      split
      · exact invcntAfter_lt hinv _
      · exact hinv
    · simp only [Change.apply, sampleDecoder_pos]
      split
      · exact posAfter_range hpos _
      · exact hpos
  | idles => exact ⟨hticks, hinv, hpos⟩
  | applies st => exact ⟨hticks, hinv, posAfter_range hpos st⟩

/-- Outputs that show nothing and an accumulator in range. -/
theorem Decoder.inCycle_of_quiet {x : Decoder} (hacc : -3 ≤ x.acc.toInt ∧ x.acc.toInt ≤ 3) (hout : x.out = Output.quiet) :
    Decoder.inCycle x := by
  refine ⟨hacc, ?_, ?_, ?_⟩ <;> simp [hout]

/-- A SAMPLE that finds ACC in range leaves a decoder in its cycle. -/
theorem sampleDecoder_inCycle {x : Decoder} (hacc : accLegal x.acc = true) (c : Config) (idx : GrayIndex) (sw : Bool) :
    Decoder.inCycle (sampleDecoder c idx sw x) := by
  refine ⟨detect_acc_range _ _ _, by rw [sampleDecoder_oor, hacc, Bool.not_true], fun hstep => ?_, (isInvalid_iff _).mp⟩
  obtain ⟨hnum, -, hzero⟩ := detect_step_emitted _ _ _ hstep
  exact ⟨hzero, Bool.eq_false_iff.mpr (mt (isInvalid_iff _).mp hnum)⟩

/-- Every change that takes place keeps a decoder after its first INIT in its cycle. -/
theorem Change.apply_inCycle {c : Config} {x : Decoder} {ch : Change} (ht : ch.takes c x)
    (h : x.live = true → Decoder.inCycle x) (hl : (ch.apply c x).live = true) : Decoder.inCycle (ch.apply c x) := by
  cases ch with
  | inits a b sw => exact Decoder.inCycle_of_quiet ⟨by simp [Change.apply], by simp [Change.apply]⟩ rfl
  | samples idx sw => exact sampleDecoder_inCycle ((accLegal_iff _).mpr (h ht.1).1) c idx sw
  | idles => exact Decoder.inCycle_of_quiet (h hl).1 rfl
  | applies st => exact h ht.1

/-- The invariant depends on the configuration and the instances alone. -/
theorem State.Inv.of_eq {s u : State} (h : s.Inv) (hcfg : u.cfg = s.cfg) (hinsts : u.insts = s.insts) : u.Inv := by
  rw [State.Inv, hcfg, hinsts]
  exact h

/-- Settles O37: a step is an operation, an operation a change of the decoder selected, and every change keeps both halves. -/
theorem invariantIsKeptByEveryStep : Obligations.InvariantIsKeptByEveryStep := by
  intro s t hs hstep
  obtain ⟨op, u, hcfg, hinsts, hexec⟩ := step_next hstep
  have hu : u.Inv := hs.of_eq hcfg hinsts
  obtain ⟨x, hx, htakes, rfl⟩ := exec_next hexec
  obtain ⟨hwidth, hcycle⟩ := hu x (State.mem_of_cur hx)
  intro y hy
  rcases List.mem_or_eq_of_mem_set hy with hkept | rfl
  · exact hu y hkept
  · exact ⟨Change.apply_inWidth hwidth _, Change.apply_inCycle htakes hcycle⟩

end Sys2Proof.Machine
end

section
/-! SUPPORT. Words and operations (30_encoding.md): the word of each format decodes to the operation it was written for. -/

namespace Sys2Proof

/-- An input word `{sw, r, e, a, b}` selects the operation of its levels (30_encoding.md R75, R77). -/
theorem decode_opWord {hasPush sw : Bool} (h : (hasPush || some sw != some true) = true) (r e a b : Bool) :
    decode hasPush .op (opWord sw r e a b) = .ok (opOfLevels r e a b sw) := by
  revert hasPush sw r e a b; decide

/-- A Gray index selects its case of SAMPLE (R78). -/
theorem decode_gidxWord {hasPush sw : Bool} (h : (hasPush || some sw != some true) = true) (idx : GrayIndex) :
    decode hasPush .gidx (gidxWord sw idx) = .ok (transitionRow idx sw) := by
  revert hasPush sw idx; decide

/-- A Step code selects APPLY of its Step (R73, R83). -/
theorem decode_stepWord (hasPush : Bool) (st : Step) : decode hasPush .step (stepWord st) = .ok (applyRow st) := by
  cases st <;> revert hasPush <;> decide

/-- The canonical word of a well-formed operation decodes to it. -/
theorem decode_encode {hasPush : Bool} {i : Instr} (h : i.wf hasPush = true) :
    decode hasPush (encode i).1 (encode i).2 = .ok i := by
  cases i with
  | init a b sw => exact decode_opWord h true false a b
  | sample a b sw => exact decode_opWord h false true a b
  | idle => exact decode_opWord (sw := false) (Bool.or_true _) false false false false
  | applyNone => exact decode_stepWord hasPush .none
  | applyRight => exact decode_stepWord hasPush .right
  | applyLeft => exact decode_stepWord hasPush .left
  | tStay0 sw | tBwd1 sw | tFwd2 sw | tInv3 sw | tFwd4 sw | tStay5 sw | tInv6 sw | tBwd7 sw | tBwd8 sw | tInv9 sw
  | tStay10 sw | tFwd11 sw | tInv12 sw | tFwd13 sw | tBwd14 sw | tStay15 sw => exact decode_gidxWord h _

/-- Settles O52: each operation's canonical word is the word of its levels, of its index or of its Step. -/
theorem decodeOfEncodeIsTheOperation : Obligations.DecodeOfEncodeIsTheOperation :=
  fun _ _ h => decode_encode h

end Sys2Proof
end

section
/-! SUPPORT. Reset, INIT and IDLE (10_state.md section 8; 40_quadrature_decoder.md sections 2 and 4), and what a change leaves alone. -/

namespace Sys2Proof.Machine

/-- The four bits of the index that stays at a pair of levels. -/
theorem getLsbD_indexOf_pairCode_self (a b : Bool) :
    (indexOf (pairCode a b) (pairCode a b)).getLsbD 3 = a ∧ (indexOf (pairCode a b) (pairCode a b)).getLsbD 2 = b ∧
    (indexOf (pairCode a b) (pairCode a b)).getLsbD 1 = a ∧ (indexOf (pairCode a b) (pairCode a b)).getLsbD 0 = b := by
  revert a b; decide

/-- INIT writes no register that is absent. -/
theorem absentKept_initDecoder (c : Config) (a b sw : Bool) (x : Decoder) : AbsentKept c x (initDecoder c a b sw x) :=
  ⟨fun h => by simp [h], fun h => by simp [h], fun h => by simp [h]⟩

/-- SAMPLE writes no register that is absent. -/
theorem absentKept_sampleDecoder (c : Config) (idx : GrayIndex) (sw : Bool) (x : Decoder) :
    AbsentKept c x (sampleDecoder c idx sw x) :=
  ⟨fun h => by simp [h], fun h => by simp [h], fun h => by simp [h]⟩

/-- A register that is written where it is present shows what was written. -/
theorem shown_of_written {α : Type} (present : Bool) (new old : α) :
    (if present then some (if present then new else old) else none) = if present then some new else none := by
  cases present <;> rfl

/-- What the owner of a decoder sees after INIT: nothing of the registers before it. -/
theorem view_initDecoder (c : Config) (a b sw : Bool) (x : Decoder) :
    (initDecoder c a b sw x).view c =
      { gray := indexOf (pairCode a b) (pairCode a b), acc := 0#4, ticks := 0,
        invcnt := if c.hasInvcnt then some 0 else none, pos := if c.hasPos then some 0 else none,
        swlast := if c.hasPush then some sw else none, push := if c.hasPush then some sw else none } := by
  simp only [Decoder.view, initDecoder_gray, initDecoder_acc, initDecoder_ticks, initDecoder_invcnt, initDecoder_pos,
    initDecoder_swlast, initDecoder_push, shown_of_written]

/-- Settles O1: the decoder is `Decoder.reset` of its levels, which the table of reset values describes. -/
theorem resetLeavesTheRegistersOfInit : Obligations.ResetLeavesTheRegistersOfInit := by
  intro c lines k l hl
  obtain ⟨h3, h2, h1, h0⟩ := getLsbD_indexOf_pairCode_self l.a l.b
  have hpush (hp : c.hasPush = true) : (c.hasPush && l.sw) = l.sw := by rw [hp, Bool.true_and]
  exact ⟨Decoder.reset c l, by simp [State.resetFor, hl], h3, h2, h1, h0, rfl, rfl, fun _ => rfl, fun _ => rfl,
    fun hp => ⟨hpush hp, hpush hp⟩, rfl, rfl, rfl, rfl⟩

/-- Settles O3. -/
theorem initGivesTheResetRegisters : Obligations.InitGivesTheResetRegisters := by
  intro s x a b sw hc
  have hgray : (indexOf (pairCode a b) (pairCode a b)).toNat = 5 * (2 * a.toNat + b.toNat) := by
    rw [toNat_indexOf, toNat_pairCode]
    omega
  exact ⟨_, _, exec_init hc a b sw, State.cur_setCur hc _, othersKept_setCur _ _, absentKept_initDecoder _ _ _ _ _, rfl, hgray,
    rfl, rfl, fun h => by simp [h], fun h => by simp [h], fun h => by simp [h], rfl⟩

/-- Settles O4: what is seen after INIT does not speak of the decoder before it. -/
theorem initForgetsTheEarlierState : Obligations.InitForgetsTheEarlierState := by
  intro s s' x x' a b sw hcfg hc hc'
  refine ⟨_, _, _, _, exec_init hc a b sw, exec_init hc' a b sw, State.cur_setCur hc _, State.cur_setCur hc' _, ?_, rfl, rfl⟩
  rw [hcfg, view_initDecoder, view_initDecoder]

/-- Settles O5. -/
theorem idleChangesNoRegister : Obligations.IdleChangesNoRegister :=
  fun _ _ hc => ⟨_, exec_idle hc, othersKept_setCur _ _, State.cur_setCur hc _⟩

end Sys2Proof.Machine
end

section
/-! SUPPORT. The step detector by its cases (42_encoder_step_detector.md section 2): the addition, its three tests, and the INVALID entry. -/

namespace Sys2Proof.Machine

/-- The four-bit addition of the sign-extended entry code is exact on a legal accumulator (R113). -/
theorem toInt_add_entryCode {acc : AccWord} (h : accLegal acc = true) {e : Entry} {v : Int} (hv : entryVal? e = some v) :
    (acc + (entryCode e).signExtend 4).toInt = acc.toInt + v := by
  cases e with
  | invalid => contradiction
  | zero => cases hv; revert acc; decide
  | plus => cases hv; revert acc; decide
  | minus => cases hv; revert acc; decide

/-- Full cycle forward (R114). -/
theorem detect_of_sum_four {acc : AccWord} (h : accLegal acc = true) {e : Entry} {v : Int} (hv : entryVal? e = some v)
    (hsum : acc.toInt + v = 4) (p : InvalidAcc) : detect p acc e = ⟨0#4, .right, false⟩ := by
  rw [detect_numeric h p hv, detectSum, if_pos hsum]

/-- Full cycle backward (R115). -/
theorem detect_of_sum_neg_four {acc : AccWord} (h : accLegal acc = true) {e : Entry} {v : Int} (hv : entryVal? e = some v)
    (hsum : acc.toInt + v = -4) (p : InvalidAcc) : detect p acc e = ⟨0#4, .left, false⟩ := by
  rw [detect_numeric h p hv, detectSum, if_neg (by omega), if_pos hsum]

/-- Mid-cycle (R116): the accumulator takes the four-bit sum. -/
theorem detect_of_midCycle {acc : AccWord} (h : accLegal acc = true) {e : Entry} {v : Int} (hv : entryVal? e = some v)
    (hlo : -3 ≤ acc.toInt + v) (hhi : acc.toInt + v ≤ 3) (p : InvalidAcc) :
    detect p acc e = ⟨acc + (entryCode e).signExtend 4, .none, false⟩ := by
  rw [detect_numeric h p hv, detectSum, if_neg (by omega), if_neg (by omega), ← toInt_add_entryCode h hv, BitVec.ofInt_toInt]

/-- An entry of value +1 is +1. -/
theorem eq_plus_of_entryVal? {e : Entry} (h : entryVal? e = some 1) : e = .plus := by
  cases e <;> simp [entryVal?] at h ⊢

/-- An entry of value -1 is -1. -/
theorem eq_minus_of_entryVal? {e : Entry} (h : entryVal? e = some (-1)) : e = .minus := by
  cases e <;> simp [entryVal?] at h ⊢

/-- An index is INVALID exactly when both lines change in it (20_memory.md R41 item 2). -/
theorem lookup_indexOf_pairCode_invalid_iff (p : Pair) (a b : Bool) :
    lookup (indexOf p (pairCode a b)) = .invalid ↔ p.getLsbD 1 ≠ a ∧ p.getLsbD 0 ≠ b := by
  revert p a b; decide

/-- A SAMPLE is INVALID exactly when both levels differ from the stored pair. -/
theorem lookup_sampleIndex_invalid_iff (g : GrayIndex) (a b : Bool) :
    lookup (sampleIndex g a b) = .invalid ↔ g.getLsbD 1 ≠ a ∧ g.getLsbD 0 ≠ b := by
  rw [sampleIndex, lookup_indexOf_pairCode_invalid_iff, getLsbD_storedPair g Nat.one_lt_two, getLsbD_storedPair g Nat.two_pos]

/-- The INVALID indices, written out (41_gray_state_machine.md R104). -/
theorem lookup_eq_invalid_iff_mem (idx : GrayIndex) : lookup idx = .invalid ↔ idx ∈ [3#4, 6#4, 9#4, 12#4] := by
  revert idx; decide

/-- The status code is `{oor, inv}` (30_encoding.md R74). -/
theorem Output.getLsbD_status (o : Output) : o.status.getLsbD 0 = o.inv ∧ o.status.getLsbD 1 = o.oor :=
  (getLsbD_pairCode o.oor o.inv).symm

end Sys2Proof.Machine
end

section
/-! SUPPORT. What a SAMPLE does to the registers (40_quadrature_decoder.md section 3), by the step and the flags it shows. -/

namespace Sys2Proof.Machine

variable {c : Config} {idx : GrayIndex} {sw : Bool} {x : Decoder}

/-- Where ESD gives `d`, ACC, the step and `oor` are those of `d`. -/
theorem sampleDecoder_of_detect {d : Detection} (h : detect c.invalidAcc x.acc (lookup idx) = d) :
    (sampleDecoder c idx sw x).acc = d.acc ∧ (sampleDecoder c idx sw x).out.step = d.step ∧
    (sampleDecoder c idx sw x).out.oor = d.oor :=
  ⟨congrArg Detection.acc h, congrArg Detection.step h, congrArg Detection.oor h⟩

/-- TICKS by the step shown (R117). -/
theorem sampleDecoder_ticks_by_step :
    (sampleDecoder c idx sw x).ticks = ticksAfter c.tickW (sampleDecoder c idx sw x).out.step x.ticks := rfl

/-- POS by the step shown, where there is a PositionCounter (R127). -/
theorem sampleDecoder_pos_by_step (h : c.hasPos = true) :
    (sampleDecoder c idx sw x).pos = posAfter c.posW (sampleDecoder c idx sw x).out.step x.pos := by
  simp [h]

/-- Without a step TICKS and POS stay. -/
theorem sampleDecoder_counts_of_no_step (h : (sampleDecoder c idx sw x).out.step = .none) :
    (sampleDecoder c idx sw x).ticks = x.ticks ∧ (sampleDecoder c idx sw x).pos = x.pos := by
  rw [sampleDecoder_out, sampleOutputs_step] at h
  rw [sampleDecoder_ticks, sampleDecoder_pos, h]
  exact ⟨rfl, ite_self _⟩

theorem ticksAfter_of_step {st : Step} (h : st ≠ .none) (w ticks : Nat) : ticksAfter w st ticks = (ticks + 1) % 2 ^ w := by
  cases st with
  | none => contradiction
  | right => rfl
  | left => rfl

/-- With a step TICKS is one more, modulo its width. -/
theorem sampleDecoder_ticks_of_step (h : (sampleDecoder c idx sw x).out.step ≠ .none) :
    (sampleDecoder c idx sw x).ticks = (x.ticks + 1) % 2 ^ c.tickW :=
  ticksAfter_of_step h _ _

/-- POS as a word moves by the step shown. -/
theorem sampleDecoder_posWord (h : c.hasPos = true) :
    (sampleDecoder c idx sw x).posWord c =
      x.posWord c + BitVec.ofInt c.posW (stepValue (sampleDecoder c idx sw x).out.step) := by
  rw [Decoder.posWord, sampleDecoder_pos_by_step h, ofInt_posAfter, BitVec.ofInt_add, Decoder.posWord]

theorem posAfter_range_of_step {st : Step} (h : st ≠ .none) (w : Nat) (pos : Int) :
    -2 ^ w ≤ 2 * posAfter w st pos ∧ 2 * posAfter w st pos < 2 ^ w := by
  cases st with
  | none => contradiction
  | right => exact wrapSigned_range _ _
  | left => exact wrapSigned_range _ _

/-- After a step POS lies in its range, wherever it was. -/
theorem sampleDecoder_pos_range_of_step (hpos : c.hasPos = true) (h : (sampleDecoder c idx sw x).out.step ≠ .none) :
    -2 ^ c.posW ≤ 2 * (sampleDecoder c idx sw x).pos ∧ 2 * (sampleDecoder c idx sw x).pos < 2 ^ c.posW := by
  rw [sampleDecoder_pos_by_step hpos]
  exact posAfter_range_of_step h _ _

/-- On Right POS goes up by one as a word. -/
theorem sampleDecoder_posWord_of_right (hpos : c.hasPos = true) (h : (sampleDecoder c idx sw x).out.step = .right) :
    (sampleDecoder c idx sw x).posWord c = x.posWord c + 1 := by
  rw [sampleDecoder_posWord hpos, h, stepValue]
  simp

/-- On Left POS goes down by one as a word. -/
theorem sampleDecoder_posWord_of_left (hpos : c.hasPos = true) (h : (sampleDecoder c idx sw x).out.step = .left) :
    (sampleDecoder c idx sw x).posWord c = x.posWord c - 1 := by
  rw [sampleDecoder_posWord hpos, h, stepValue, BitVec.ofInt_neg, ← BitVec.sub_eq_add_neg]
  simp

/-- INVCNT, where present, counts a reported InvalidTransition (R118). -/
theorem sampleDecoder_invcnt_of_inv (hcnt : c.hasInvcnt = true) (h : (sampleDecoder c idx sw x).out.inv = true) :
    (sampleDecoder c idx sw x).invcnt = (x.invcnt + 1) % 2 ^ c.invW := by
  rw [sampleDecoder_out, sampleOutputs_inv] at h
  rw [sampleDecoder_invcnt, if_pos hcnt, invcntAfter, if_pos h, wrapUnsigned]

/-- INVCNT counts nothing else. -/
theorem sampleDecoder_invcnt_of_not_inv (h : (sampleDecoder c idx sw x).out.inv = false) :
    (sampleDecoder c idx sw x).invcnt = x.invcnt := by
  rw [sampleDecoder_out, sampleOutputs_inv] at h
  rw [sampleDecoder_invcnt, invcntAfter, if_neg (Bool.eq_false_iff.mp h), ite_self]

/-- An INVALID transition meets an accumulator in range as P_INVALID_ACC says (R112). -/
theorem sampleDecoder_acc_of_invalid (h : lookup idx = .invalid) (hacc : accLegal x.acc = true) :
    (sampleDecoder c idx sw x).acc = accAfterInvalid c.invalidAcc x.acc := by
  rw [sampleDecoder_acc, h, detect_invalid hacc]

theorem pressedNow_iff (active push push' : Bool) :
    pressedNow active push push' = true ↔ push ≠ active ∧ push' = active := by
  simp [pressedNow]

end Sys2Proof.Machine
end

section
/-! SUPPORT. The statements about one SAMPLE (sections 3 and 5 of 40_quadrature_decoder.md, sections 2 to 4 of
42_encoder_step_detector.md, 43_position_counter.md). -/

namespace Sys2Proof.Machine

/-- Settles O7: the last part because the four pairs are the successors of `p` by a stay, the two edges and a jump. -/
theorem grayIsASixteenStateMachine : Obligations.GrayIsASixteenStateMachine := by
  refine ⟨?_, ?_, ?_, ?_⟩
  · intro s x a b sw hc hl
    exact ⟨_, _, exec_sample hc hl a b sw, State.cur_setCur hc _, rfl, rfl⟩
  · intro s x hc
    exact ⟨_, _, exec_idle hc, State.cur_setCur hc _, rfl⟩
  · intro s x a b sw hc
    refine ⟨_, _, exec_init hc a b sw, State.cur_setCur hc _, ?_⟩
    rw [initDecoder_gray]
    revert a b; decide
  · intro p
    have hsucc : [0#2, 1#2, 2#2, 3#2].Perm [p, forwardPair p, backwardPair p, jumpPair p] := by
      revert p; decide
    simpa using hsucc.map fun c => lookup (indexOf p c)

/-- Settles O8. -/
theorem invalidTransitionIsReportedAndAbsorbed : Obligations.InvalidTransitionIsReportedAndAbsorbed := by
  refine ⟨fun s x a b sw hc hl => ?_, fun s x a b sw hc => ⟨⟨_, _, exec_init hc a b sw, State.cur_setCur hc _, rfl⟩,
    ⟨_, _, exec_idle hc, State.cur_setCur hc _, rfl⟩⟩⟩
  refine ⟨_, _, exec_sample hc hl a b sw, State.cur_setCur hc _, othersKept_setCur _ _,
    (isInvalid_iff _).trans (lookup_sampleIndex_invalid_iff _ _ _), (isInvalid_iff _).trans (lookup_eq_invalid_iff_mem _),
    (Output.getLsbD_status _).1, fun hinv => ?_⟩
  have hentry : lookup (sampleIndex x.gray a b) = .invalid := (isInvalid_iff _).mp hinv
  have hstep := sampleDecoder_step_of_invalid hentry s.cfg sw x
  obtain ⟨hticks, hpos⟩ := sampleDecoder_counts_of_no_step hstep
  have hacc (hlo : -3 ≤ x.acc.toInt) (hhi : x.acc.toInt ≤ 3) :=
    sampleDecoder_acc_of_invalid (c := s.cfg) (sw := sw) hentry ((accLegal_iff _).mpr ⟨hlo, hhi⟩)
  exact ⟨earlierPair_sampleIndex _ _ _, storedPair_sampleIndex _ _ _, hstep, hticks, hpos,
    fun hcnt => sampleDecoder_invcnt_of_inv hcnt hinv,
    fun hlo hhi hold => by rw [hacc hlo hhi, hold, accAfterInvalid],
    fun hlo hhi hclear => by rw [hacc hlo hhi, hclear, accAfterInvalid]⟩

/-- Settles O9. -/
theorem outOfRangeAccumulatorIsCleared : Obligations.OutOfRangeAccumulatorIsCleared := by
  intro s x a b sw hc hl
  refine ⟨_, _, exec_sample hc hl a b sw, State.cur_setCur hc _, othersKept_setCur _ _, detect_oor_iff _ _ _,
    (Output.getLsbD_status _).2, fun hoor => ?_⟩
  have hbad : accLegal x.acc = false := by
    rwa [sampleDecoder_oor, Bool.not_eq_true'] at hoor
  obtain ⟨hacc, hstep, -⟩ := sampleDecoder_of_detect (sw := sw) (detect_outOfRange hbad s.cfg.invalidAcc (lookup (sampleIndex x.gray a b)))
  obtain ⟨hticks, hpos⟩ := sampleDecoder_counts_of_no_step hstep
  exact ⟨hacc, hstep, hticks, hpos, toNat_sampleIndex _ _ _, isInvalid_iff _⟩

/-- Settles O11: the sum +4 needs the largest accumulator and the largest entry. -/
theorem forwardFullCycleEmitsRight : Obligations.ForwardFullCycleEmitsRight := by
  intro s x a b sw v hc hl hlo hhi hv hsum
  have hv1 := (entryVal?_range hv).2
  obtain rfl : v = 1 := by omega
  exact ⟨⟨by omega, eq_plus_of_entryVal? hv⟩, _, _, exec_sample hc hl a b sw, State.cur_setCur hc _, othersKept_setCur _ _,
    sampleDecoder_of_detect (detect_of_sum_four ((accLegal_iff _).mpr ⟨hlo, hhi⟩) hv hsum _)⟩

/-- Settles O12: the sum -4 needs the smallest accumulator and the smallest entry. -/
theorem backwardFullCycleEmitsLeft : Obligations.BackwardFullCycleEmitsLeft := by
  intro s x a b sw v hc hl hlo hhi hv hsum
  have hv1 := (entryVal?_range hv).1
  obtain rfl : v = -1 := by omega
  exact ⟨⟨by omega, eq_minus_of_entryVal? hv⟩, _, _, exec_sample hc hl a b sw, State.cur_setCur hc _, othersKept_setCur _ _,
    sampleDecoder_of_detect (detect_of_sum_neg_four ((accLegal_iff _).mpr ⟨hlo, hhi⟩) hv hsum _)⟩

/-- Settles O13. -/
theorem midCycleSumIsKept : Obligations.MidCycleSumIsKept := by
  intro s x a b sw v hc hl hlo hhi hv hslo hshi
  have hlegal := (accLegal_iff _).mpr ⟨hlo, hhi⟩
  obtain ⟨hacc, hstep, hoor⟩ := sampleDecoder_of_detect (sw := sw) (detect_of_midCycle hlegal hv hslo hshi s.cfg.invalidAcc)
  exact ⟨_, _, exec_sample hc hl a b sw, State.cur_setCur hc _, othersKept_setCur _ _,
    (congrArg BitVec.toInt hacc).trans (toInt_add_entryCode hlegal hv), hstep, hoor, sampleDecoder_counts_of_no_step hstep⟩

/-- Settles O10: the sum exceeds the range of ACC by at most one, and each test is a case of ESD. -/
theorem contributionAddsWithoutOverflow : Obligations.ContributionAddsWithoutOverflow := by
  intro s x a b sw v hc hl hlo hhi hv
  obtain ⟨hv0, hv1⟩ := entryVal?_range hv
  have hlegal := (accLegal_iff _).mpr ⟨hlo, hhi⟩
  have hgood : (sampleDecoder s.cfg (sampleIndex x.gray a b) sw x).out.oor = false := by
    rw [sampleDecoder_oor, hlegal, Bool.not_true]
  refine ⟨⟨by omega, by omega, toInt_add_entryCode hlegal hv⟩, by omega, _, _, exec_sample hc hl a b sw, State.cur_setCur hc _,
    othersKept_setCur _ _, hgood, fun hsum => ?_, fun hsum => ?_, fun hslo hshi => ?_⟩
  · obtain ⟨hacc, hstep, -⟩ := sampleDecoder_of_detect (sw := sw) (detect_of_sum_four hlegal hv hsum s.cfg.invalidAcc)
    exact ⟨hacc, hstep⟩
  · obtain ⟨hacc, hstep, -⟩ := sampleDecoder_of_detect (sw := sw) (detect_of_sum_neg_four hlegal hv hsum s.cfg.invalidAcc)
    exact ⟨hacc, hstep⟩
  · obtain ⟨hacc, hstep, -⟩ := sampleDecoder_of_detect (sw := sw) (detect_of_midCycle hlegal hv hslo hshi s.cfg.invalidAcc)
    exact ⟨hacc, hstep⟩

/-- What a SAMPLE that goes on leaves in its decoder. -/
theorem exec_sample_next {a b sw : Bool} {s t : State} {y : Decoder} (h : exec (.sample a b sw) s = .next t)
    (hy : t.cur = some y) :
    ∃ x, s.cur = some x ∧ x.live = true ∧ y = sampleDecoder s.cfg (sampleIndex x.gray a b) sw x := by
  obtain ⟨x, hc, ⟨hl, -⟩, rfl⟩ := sampleOp_next h
  rw [State.cur_setCur hc] at hy
  exact ⟨x, hc, hl, (Option.some.inj hy).symm⟩

/-- A step is shown without a class, with ACC at 0. -/
theorem sampleDecoder_of_step {c : Config} {idx : GrayIndex} {sw : Bool} {x : Decoder}
    (h : (sampleDecoder c idx sw x).out.step ≠ .none) :
    (sampleDecoder c idx sw x).out.inv = false ∧ (sampleDecoder c idx sw x).out.oor = false ∧
    (sampleDecoder c idx sw x).acc = 0#4 := by
  obtain ⟨hnum, hoor, hacc⟩ := detect_step_emitted _ _ _ h
  exact ⟨Bool.eq_false_iff.mpr (mt (isInvalid_iff _).mp hnum), hoor, hacc⟩

/-- Settles O14. -/
theorem classesAndStepsExcludeEachOther : Obligations.ClassesAndStepsExcludeEachOther := by
  intro s t y a b sw h hy
  obtain ⟨x, -, -, rfl⟩ := exec_sample_next h hy
  exact ⟨sampleDecoder_of_step, detect_acc_range _ _ _⟩

/-- Settles O15. -/
theorem ticksCountEmittedSteps : Obligations.TicksCountEmittedSteps :=
  fun _ _ a b sw hc hl => ⟨_, _, exec_sample hc hl a b sw, State.cur_setCur hc _, othersKept_setCur _ _,
    fun h => (sampleDecoder_counts_of_no_step h).1, sampleDecoder_ticks_of_step⟩

/-- Settles O16. -/
theorem invcntCountsInvalidTransitions : Obligations.InvcntCountsInvalidTransitions :=
  fun _ _ a b sw hc hl => ⟨_, _, exec_sample hc hl a b sw, State.cur_setCur hc _, othersKept_setCur _ _,
    sampleDecoder_invcnt_of_inv, fun _ => sampleDecoder_invcnt_of_not_inv, (absentKept_sampleDecoder _ _ _ _).1⟩

/-- Settles O17. -/
theorem positionFollowsTheStep : Obligations.PositionFollowsTheStep := by
  intro s x a b sw hc hl
  exact ⟨_, _, exec_sample hc hl a b sw, State.cur_setCur hc _, othersKept_setCur _ _,
    fun hpos h => ⟨sampleDecoder_posWord_of_right hpos h, sampleDecoder_pos_range_of_step hpos (h.trans_ne (by decide))⟩,
    fun hpos h => ⟨sampleDecoder_posWord_of_left hpos h, sampleDecoder_pos_range_of_step hpos (h.trans_ne (by decide))⟩,
    fun h => (sampleDecoder_counts_of_no_step h).2, (absentKept_sampleDecoder _ _ _ _).2.1⟩

/-- Settles O18. -/
theorem buttonIsDebounced : Obligations.ButtonIsDebounced := by
  intro s x a b sw hc hl
  refine ⟨_, _, exec_sample hc hl a b sw, State.cur_setCur hc _, othersKept_setCur _ _, fun hpush => ?_, fun hpush => ?_⟩
  · rw [sampleDecoder_swlast, sampleDecoder_push, if_pos hpush, if_pos hpush, sampleDecoder_out, sampleOutputs, hpush, Bool.true_and]
    exact ⟨rfl, fun h => if_pos h, fun h => if_neg h, pressedNow_iff _ _ _⟩
  · refine ⟨(absentKept_sampleDecoder _ _ _ _).2.2 hpush, ?_⟩
    rw [sampleDecoder_out, sampleOutputs, hpush, Bool.false_and]

/-- Settles O33: at most one line then differs from the pair the INVALID transition stored. -/
theorem samplesResynchroniseAfterInvalid : Obligations.SamplesResynchroniseAfterInvalid := by
  intro s x a b a' b' sw sw' hc hl hinv hmoved
  let y := sampleDecoder s.cfg (sampleIndex x.gray a b) sw x
  have hy : (s.setCur y).cur = some y := State.cur_setCur hc y
  refine ⟨_, y, _, _, exec_sample hc hl a b sw, hy, sampleDecoder_inv_of_invalid hinv _ _ _, exec_sample hy hl a' b' sw',
    State.cur_setCur hy _, Bool.eq_false_iff.mpr fun h => ?_⟩
  obtain ⟨ha, hb⟩ := (lookup_sampleIndex_invalid_iff _ _ _).mp ((isInvalid_iff _).mp h)
  obtain ⟨ha', hb'⟩ := getLsbD_sampleIndex x.gray a b
  exact hmoved.elim (fun e => ha (ha'.trans e.symm)) (fun e => hb (hb'.trans e.symm))

end Sys2Proof.Machine
end

section
/-! SUPPORT. The cases of SAMPLE (30_encoding.md R78) and APPLY by itself (43_position_counter.md R126). -/

namespace Sys2Proof.Machine

@[simp] theorem toNat_earlierPair (g : GrayIndex) : (earlierPair g).toNat = g.toNat / 4 := by
  revert g; decide

/-- When a row is selected, in numbers. -/
theorem storedPair_eq_earlierPair_iff (g idx : GrayIndex) :
    storedPair g = earlierPair idx ↔ g.toNat % 4 = idx.toNat / 4 := by
  rw [← BitVec.toNat_inj, toNat_storedPair, toNat_earlierPair]

/-- The SAMPLE of the current pair of an index forms it, from the index's previous pair. -/
theorem sampleIndex_of_selected {g idx : GrayIndex} (h : storedPair g = earlierPair idx) :
    sampleIndex g (idx.getLsbD 1) (idx.getLsbD 0) = idx := by
  have hc : pairCode (idx.getLsbD 1) (idx.getLsbD 0) = storedPair idx := by
    rw [← getLsbD_storedPair idx Nat.one_lt_two, ← getLsbD_storedPair idx Nat.two_pos]
    exact pairCode_pairLevels _
  rw [sampleIndex, h, hc, indexOf_pairs]

/-- Settles O20. -/
theorem transitionRowIsItsSample : Obligations.TransitionRowIsItsSample := by
  intro s x idx sw hc hl
  rw [exec_transitionRow]
  split
  next h =>
    have hsel := (storedPair_eq_earlierPair_iff _ _).mpr h
    rw [transitionOp_of_selected hc hl hsel, exec_sample hc hl, sampleIndex_of_selected hsel]
  next h => exact transitionOp_not_selected hc hl (mt (storedPair_eq_earlierPair_iff _ _).mp h) sw

/-- A row selected performs its SAMPLE, with the frame of one. -/
theorem exec_row_of_selected {s : State} {x : Decoder} {idx : GrayIndex} (hc : s.cur = some x) (hl : x.live = true)
    (hsel : x.gray.toNat % 4 = idx.toNat / 4) (sw : Bool) {P : Decoder → Prop} (hP : P (sampleDecoder s.cfg idx sw x)) :
    ∃ t y, exec (transitionRow idx sw) s = .next t ∧ t.cur = some y ∧ OthersKept s t ∧ AbsentKept s.cfg x y ∧ y.live = true ∧
      y.gray = idx ∧ P y := by
  have he := transitionOp_of_selected hc hl ((storedPair_eq_earlierPair_iff _ _).mpr hsel) sw
  exact ⟨_, _, (exec_transitionRow idx sw s).trans he, State.cur_setCur hc _, othersKept_setCur _ _,
    absentKept_sampleDecoder _ _ _ _, hl, rfl, hP⟩

/-- The rows of a list of indices with one entry: each is the case at its index. -/
theorem row_of_mem {e : Entry} {idxs : List GrayIndex} (he : ∀ k ∈ idxs, lookup k = e) {sw : Bool} {i : Instr} {idx : GrayIndex}
    (h : (i, idx) ∈ idxs.map fun k => (transitionRow k sw, k)) : i = transitionRow idx sw ∧ lookup idx = e := by
  obtain ⟨k, hk, hrow⟩ := List.mem_map.mp h
  obtain ⟨rfl, rfl⟩ := Prod.mk.inj hrow
  exact ⟨rfl, he k hk⟩

/-- A numeric entry shows no class to an accumulator in range, and is not counted by INVCNT. -/
theorem sampleDecoder_of_numeric {idx : GrayIndex} (h : lookup idx ≠ .invalid) {x : Decoder} (hacc : accLegal x.acc = true)
    (c : Config) (sw : Bool) :
    (sampleDecoder c idx sw x).out.inv = false ∧ (sampleDecoder c idx sw x).out.oor = false ∧
    (sampleDecoder c idx sw x).invcnt = x.invcnt := by
  have hinv : (sampleDecoder c idx sw x).out.inv = false := Bool.eq_false_iff.mpr (mt (isInvalid_iff _).mp h)
  exact ⟨hinv, by rw [sampleDecoder_oor, hacc, Bool.not_true], sampleDecoder_invcnt_of_not_inv hinv⟩

/-- A mid-cycle sum: ACC takes it, nothing is emitted, TICKS and POS stay. -/
theorem sampleDecoder_of_midCycle {idx : GrayIndex} {x : Decoder} (hacc : accLegal x.acc = true) {v : Int}
    (hv : entryVal? (lookup idx) = some v) (hlo : -3 ≤ x.acc.toInt + v) (hhi : x.acc.toInt + v ≤ 3) (c : Config) (sw : Bool) :
    (sampleDecoder c idx sw x).acc.toInt = x.acc.toInt + v ∧ (sampleDecoder c idx sw x).out.step = .none ∧
    (sampleDecoder c idx sw x).ticks = x.ticks ∧ (sampleDecoder c idx sw x).pos = x.pos := by
  obtain ⟨hnew, hstep, -⟩ := sampleDecoder_of_detect (sw := sw) (detect_of_midCycle hacc hv hlo hhi c.invalidAcc)
  exact ⟨(congrArg BitVec.toInt hnew).trans (toInt_add_entryCode hacc hv), hstep, sampleDecoder_counts_of_no_step hstep⟩

/-- A stay changes neither ACC nor a counter and shows nothing. -/
theorem sampleDecoder_of_stay {idx : GrayIndex} (h : lookup idx = .zero) {x : Decoder} (hacc : accLegal x.acc = true)
    (c : Config) (sw : Bool) :
    (sampleDecoder c idx sw x).acc = x.acc ∧ (sampleDecoder c idx sw x).out.step = .none ∧
    (sampleDecoder c idx sw x).out.inv = false ∧ (sampleDecoder c idx sw x).out.oor = false ∧
    (sampleDecoder c idx sw x).ticks = x.ticks ∧ (sampleDecoder c idx sw x).invcnt = x.invcnt ∧
    (sampleDecoder c idx sw x).pos = x.pos := by
  have hr := (accLegal_iff _).mp hacc
  obtain ⟨hinv, hoor, hcnt⟩ := sampleDecoder_of_numeric (by rw [h]; decide) hacc c sw
  obtain ⟨hnew, hstep, hticks, hpos⟩ := sampleDecoder_of_midCycle hacc (v := 0) (by rw [h, entryVal?]) (by omega) (by omega) c sw
  exact ⟨BitVec.eq_of_toInt_eq (by rw [hnew, Int.add_zero]), hstep, hinv, hoor, hticks, hcnt, hpos⟩

/-- Settles O21: each row is the case at its index, whose entry is 0. -/
theorem stayRowsKeepTheCount : Obligations.StayRowsKeepTheCount := by
  intro s x sw i idx hrow hc hl hsel hlo hhi
  obtain ⟨rfl, hentry⟩ := row_of_mem (e := .zero) (idxs := [0#4, 5#4, 10#4, 15#4]) (by decide) hrow
  exact exec_row_of_selected hc hl hsel sw (sampleDecoder_of_stay hentry ((accLegal_iff _).mpr ⟨hlo, hhi⟩) s.cfg sw)

/-- Settles O22: each row is the case at its index, whose entry is +1. -/
theorem forwardRowsCountUp : Obligations.ForwardRowsCountUp := by
  intro s x sw i idx hrow hc hl hsel hlo hhi
  obtain ⟨rfl, hentry⟩ := row_of_mem (e := .plus) (idxs := [2#4, 4#4, 11#4, 13#4]) (by decide) hrow
  have hacc := (accLegal_iff _).mpr ⟨hlo, hhi⟩
  have hv : entryVal? (lookup idx) = some 1 := by rw [hentry, entryVal?]
  obtain ⟨hinv, hoor, hcnt⟩ := sampleDecoder_of_numeric (by rw [hentry]; decide) hacc s.cfg sw
  refine exec_row_of_selected hc hl hsel sw ⟨hinv, hoor, hcnt,
    fun hlt => sampleDecoder_of_midCycle hacc hv (by omega) (by omega) s.cfg sw, fun hmax => ?_⟩
  obtain ⟨hnew, hstep, -⟩ := sampleDecoder_of_detect (sw := sw) (detect_of_sum_four hacc hv (by omega) s.cfg.invalidAcc)
  exact ⟨hnew, hstep, sampleDecoder_ticks_of_step (hstep.trans_ne (by decide)), fun hp => sampleDecoder_posWord_of_right hp hstep⟩

/-- Settles O23: each row is the case at its index, whose entry is -1. -/
theorem backwardRowsCountDown : Obligations.BackwardRowsCountDown := by
  intro s x sw i idx hrow hc hl hsel hlo hhi
  obtain ⟨rfl, hentry⟩ := row_of_mem (e := .minus) (idxs := [1#4, 7#4, 8#4, 14#4]) (by decide) hrow
  have hacc := (accLegal_iff _).mpr ⟨hlo, hhi⟩
  have hv : entryVal? (lookup idx) = some (-1) := by rw [hentry, entryVal?]
  obtain ⟨hinv, hoor, hcnt⟩ := sampleDecoder_of_numeric (by rw [hentry]; decide) hacc s.cfg sw
  refine exec_row_of_selected hc hl hsel sw ⟨hinv, hoor, hcnt,
    fun hgt => sampleDecoder_of_midCycle hacc hv (by omega) (by omega) s.cfg sw, fun hmin => ?_⟩
  obtain ⟨hnew, hstep, -⟩ := sampleDecoder_of_detect (sw := sw) (detect_of_sum_neg_four hacc hv (by omega) s.cfg.invalidAcc)
  exact ⟨hnew, hstep, sampleDecoder_ticks_of_step (hstep.trans_ne (by decide)), fun hp => sampleDecoder_posWord_of_left hp hstep⟩

/-- Settles O24: each row is the case at its index, whose entry is INVALID. -/
theorem invalidRowsAreAbsorbed : Obligations.InvalidRowsAreAbsorbed := by
  intro s x sw i idx hrow hc hl hsel hlo hhi
  obtain ⟨rfl, hentry⟩ := row_of_mem (e := .invalid) (idxs := [3#4, 6#4, 9#4, 12#4]) (by decide) hrow
  have hlegal := (accLegal_iff _).mpr ⟨hlo, hhi⟩
  have hacc := sampleDecoder_acc_of_invalid (c := s.cfg) (sw := sw) hentry hlegal
  have hstep := sampleDecoder_step_of_invalid hentry s.cfg sw x
  have hinv := sampleDecoder_inv_of_invalid hentry s.cfg sw x
  have hoor : (sampleDecoder s.cfg idx sw x).out.oor = false := by rw [sampleDecoder_oor, hlegal, Bool.not_true]
  obtain ⟨hticks, hpos⟩ := sampleDecoder_counts_of_no_step hstep
  exact exec_row_of_selected hc hl hsel sw ⟨hstep, hinv, hoor, hticks, hpos,
    fun hold => by rw [hacc, hold, accAfterInvalid], fun hclear => by rw [hacc, hclear, accAfterInvalid],
    fun hp => sampleDecoder_invcnt_of_inv hp hinv⟩

/-- Settles O19: the three rows are APPLY of their Step. -/
theorem applyMovesOnlyThePosition : Obligations.ApplyMovesOnlyThePosition := by
  intro s x i st hrow hc hl hpos
  have he : exec i s = applyOp st s := by
    simp only [List.mem_cons, Prod.mk.injEq, List.not_mem_nil, or_false] at hrow
    obtain ⟨rfl, rfl⟩ | ⟨rfl, rfl⟩ | ⟨rfl, rfl⟩ := hrow <;> rfl
  have hword : (applyDecoder s.cfg st x).posWord s.cfg = x.posWord s.cfg + BitVec.ofInt s.cfg.posW (stepValue st) := by
    rw [Decoder.posWord, applyDecoder_pos, ofInt_posAfter, BitVec.ofInt_add, Decoder.posWord]
  refine ⟨_, _, he.trans (applyOp_of_present hc hl hpos st), State.cur_setCur hc _, othersKept_setCur _ _, rfl, ?_, ?_, ?_,
    fun hst => posAfter_range_of_step hst _ _⟩
  · rintro rfl
    rfl
  · rintro rfl
    rw [hword, stepValue]
    simp
  · rintro rfl
    rw [hword, stepValue, BitVec.ofInt_neg, ← BitVec.sub_eq_add_neg]
    simp

/-- Settles O42: each operation that is not INIT or IDLE is SAMPLE, one of its cases or APPLY. -/
theorem operationsWithoutMeaningStopByName : Obligations.OperationsWithoutMeaningStopByName := by
  refine ⟨fun s x i hc hl hinit hidle => ?_, fun s x i hc hl hpos hi => ?_⟩
  · cases i with
    | init a b sw => exact absurd rfl (hinit a b sw)
    | idle => exact absurd rfl hidle
    | sample a b sw => exact sampleOp_beforeInit hc hl a b sw
    | applyNone | applyRight | applyLeft => exact applyOp_beforeInit hc hl _
    | tStay0 sw | tBwd1 sw | tFwd2 sw | tInv3 sw | tFwd4 sw | tStay5 sw | tInv6 sw | tBwd7 sw | tBwd8 sw | tInv9 sw
    | tStay10 sw | tFwd11 sw | tInv12 sw | tFwd13 sw | tBwd14 sw | tStay15 sw => exact transitionOp_beforeInit hc hl _ sw
  · simp only [List.mem_cons, List.not_mem_nil, or_false] at hi
    obtain rfl | rfl | rfl := hi
    · exact applyOp_absent hc hl hpos .none
    · exact applyOp_absent hc hl hpos .right
    · exact applyOp_absent hc hl hpos .left

end Sys2Proof.Machine
end

section
/-! SUPPORT. The TransitionTable as a whole (20_memory.md section 2): its closed form, its packed word, its symmetries. -/

namespace Sys2Proof.Machine

/-- Settles O27: over the sixteen indices. -/
theorem tableHasItsClosedForm : Obligations.TableHasItsClosedForm := by
  unfold Obligations.TableHasItsClosedForm; decide

/-- Settles O28: over the sixteen indices. -/
theorem tablePacksIntoOneWord : Obligations.TablePacksIntoOneWord := by
  unfold Obligations.TablePacksIntoOneWord; decide

/-- Negating twice gives the entry back. -/
@[simp] theorem negEntry_negEntry (e : Entry) : negEntry (negEntry e) = e := by
  cases e <;> rfl

/-- Reversal of a transition negates its entry (R61 item 1). -/
theorem lookup_indexOf_reversed (p c : Pair) : lookup (indexOf c p) = negEntry (lookup (indexOf p c)) := by
  revert p c; decide

/-- Exchanging A and B negates the entry (R61 item 2). -/
theorem lookup_indexOf_swapPair (p c : Pair) :
    lookup (indexOf (swapPair p) (swapPair c)) = negEntry (lookup (indexOf p c)) := by
  revert p c; decide

/-- Inverting both lines keeps the entry (R61 item 4). -/
theorem lookup_indexOf_inverted (p c : Pair) : lookup (indexOf (3#2 - p) (3#2 - c)) = lookup (indexOf p c) := by
  revert p c; decide

/-- Settles O29: the third item is the first two together. -/
theorem tableSymmetries : Obligations.TableSymmetries := by
  intro p c
  refine ⟨lookup_indexOf_reversed p c, lookup_indexOf_swapPair p c, ?_, lookup_indexOf_inverted p c⟩
  rw [lookup_indexOf_swapPair, lookup_indexOf_reversed, negEntry_negEntry]

/-- Settles O30. -/
theorem pseudoOperationsTakeTheirEdges : Obligations.PseudoOperationsTakeTheirEdges :=
  fun p => ⟨lookup_indexOf_forwardPair p, lookup_indexOf_backwardPair p, lookup_indexOf_self p, lookup_indexOf_jumpPair p⟩

/-- The two high bits of an index are the levels of its previous pair. -/
theorem pairCode_of_earlier_levels (g : GrayIndex) : pairCode (g.getLsbD 3) (g.getLsbD 2) = earlierPair g := by
  revert g; decide

/-- Settles O48: the INIT stores the previous pair of `g`, from which the SAMPLE of its current pair forms it. -/
theorem everyGrayValueIsReached : Obligations.EveryGrayValueIsReached := by
  intro s x g hc
  let y := initDecoder s.cfg (g.getLsbD 3) (g.getLsbD 2) false x
  have hy : (s.setCur y).cur = some y := State.cur_setCur hc y
  exact ⟨_, _, _, runOps_cons_some (exec_init hc _ _ _) hy
      (runOps_cons_some (exec_sample hy rfl _ _ _) (State.cur_setCur hy _) (runOps_nil _)), State.cur_setCur hy _,
    sampleIndex_of_selected ((storedPair_indexOf _ _).trans (pairCode_of_earlier_levels g))⟩

end Sys2Proof.Machine
end

section
/-! SUPPORT. Rules of the whole machine: what an operation reads and writes of it (40_quadrature_decoder.md section 5; 10_state.md
sections 3, 6, 8 and 9). -/

namespace Sys2Proof.Machine

/-- Settles O43: the frame is that of writing the decoder selected; its change is a function of itself and the configuration. -/
theorem instancesAreIndependent : Obligations.InstancesAreIndependent := by
  refine ⟨fun i s t h => ?_, fun i s s' t hcfg hcur h => ?_⟩
  · obtain ⟨x, -, -, rfl⟩ := exec_next h
    exact othersKept_setCur _ _
  · obtain ⟨x, hc, ht, rfl⟩ := exec_next h
    rw [State.cur_setCur hc, ← hcfg]
    exact exec_cur_of_takes (hcur.trans hc) (hcfg.symm ▸ ht)

section OlderPair

variable {x : Decoder} {g : GrayIndex} (hg : storedPair g = storedPair x.gray)
include hg

/-- An operation stands for the same change whatever GRAY[3:2] is. -/
theorem changeOf_olderPair (i : Instr) : changeOf { x with gray := g } i = changeOf x i := by
  cases i with
  | sample a b sw => rw [changeOf, changeOf, sampleIndex, sampleIndex, hg]
  | _ => rfl

/-- A change takes place whatever GRAY[3:2] is. -/
theorem Change.takes_olderPair {c : Config} {ch : Change} (h : ch.takes c x) : ch.takes c { x with gray := g } := by
  cases ch with
  | samples idx sw => exact ⟨h.1, hg.trans h.2⟩
  | _ => exact h

/-- After a change two decoders that differed in GRAY[3:2] alone differ at most in it. -/
theorem Change.apply_olderPair (c : Config) (ch : Change) :
    ∃ g', storedPair g' = storedPair (ch.apply c x).gray ∧ ch.apply c { x with gray := g } = { ch.apply c x with gray := g' } := by
  cases ch with
  | inits a b sw => exact ⟨_, rfl, rfl⟩
  | samples idx sw => exact ⟨_, rfl, rfl⟩
  | idles => exact ⟨g, hg, rfl⟩
  | applies st => exact ⟨g, hg, rfl⟩

end OlderPair

/-- Settles O45. -/
theorem olderPairIsNeverRead : Obligations.OlderPairIsNeverRead := by
  intro i s s' t x g hcfg hc hg hc' h
  obtain ⟨x₀, hc₀, ht, rfl⟩ := exec_next h
  obtain rfl : x₀ = x := Option.some.inj (hc₀.symm.trans hc)
  obtain ⟨g', hg', happly⟩ := Change.apply_olderPair hg s.cfg (changeOf x₀ i)
  obtain ⟨t', he, hcur⟩ := exec_cur_of_takes (i := i) hc'
    (by rw [changeOf_olderPair hg, hcfg]; exact Change.takes_olderPair hg ht)
  rw [changeOf_olderPair hg, hcfg, happly] at hcur
  exact ⟨t', _, g', he, State.cur_setCur hc _, hg', hcur⟩

/-- Settles O46: GRAY, ACC, the step, `inv` and `oor` after a SAMPLE are made of the index it forms, ACC and P_INVALID_ACC. -/
theorem countersNeverFeedBack : Obligations.CountersNeverFeedBack := by
  intro s s' t x x' y a b sw sw' hcfg hc hc' hlive hpair hacc h hy
  obtain ⟨x₀, hc₀, hl, rfl⟩ := exec_sample_next h hy
  obtain rfl : x₀ = x := Option.some.inj (hc₀.symm.trans hc)
  have hidx : sampleIndex x'.gray a b = sampleIndex x₀.gray a b := by rw [sampleIndex, hpair, sampleIndex]
  have hdetect : detect s'.cfg.invalidAcc x'.acc (lookup (sampleIndex x'.gray a b)) =
      detect s.cfg.invalidAcc x₀.acc (lookup (sampleIndex x₀.gray a b)) := by rw [hcfg, hacc, hidx]
  obtain ⟨hnew, hstep, hoor⟩ := sampleDecoder_of_detect (sw := sw') hdetect
  exact ⟨_, _, exec_sample hc' (hlive.trans hl) a b sw', State.cur_setCur hc' _, hidx, hnew, hstep,
    congrArg (fun idx => isInvalid (lookup idx)) hidx, hoor⟩

/-- Settles O47: no change undoes the first INIT, and the other instances are not written. -/
theorem configurationNeverChanges : Obligations.ConfigurationNeverChanges := by
  intro s t h
  obtain ⟨op, u, hcfg, hinsts, hexec⟩ := step_next h
  obtain ⟨x, hc, -, rfl⟩ := exec_next hexec
  refine ⟨hcfg, by simp [hinsts], fun k z hk hl => ?_⟩
  rw [← hinsts] at hk
  by_cases hsel : k = u.sel
  · subst hsel
    obtain rfl : x = z := Option.some.inj (hc.symm.trans hk)
    exact ⟨_, State.cur_setCur hc _, Change.apply_live hl _ _⟩
  · exact ⟨z, (State.setCur_other hsel).trans hk, hl⟩

end Sys2Proof.Machine
end

section
/-! SUPPORT. The operations issued and their order (20_memory.md section 8). -/

namespace Sys2Proof.Machine

/-- Settles O49. -/
theorem stepRunsTheDecodedOperation : Obligations.StepRunsTheDecodedOperation :=
  ⟨fun _ _ _ _ => step_of_decoded, fun _ => step_of_none⟩

/-- A step takes the well-formed operation issued first. -/
theorem step_of_issued (s : State) {k : Nat} {i : Instr} {rest : List Input} (h : s.inputs = inputOf k i :: rest)
    (hwf : i.wf s.cfg.hasPush = true) : step s = exec i { s with inputs := rest, sel := k } :=
  step_of_decoded h (decode_encode hwf)

/-- The machine after the operation `i`, issued to decoder `k`, was performed on the decoder `x` with `rest` still issued. -/
def State.afterIssued (s : State) (k : Nat) (i : Instr) (x : Decoder) (rest : List Input) : State :=
  { s with insts := s.insts.set k ((changeOf x i).apply s.cfg x), sel := k, inputs := rest }

/-- A step goes on where the change of the operation issued first can be taken. -/
theorem step_issued_of_takes (s : State) {k : Nat} {i : Instr} {rest : List Input} {x : Decoder}
    (h : s.inputs = inputOf k i :: rest) (hwf : i.wf s.cfg.hasPush = true) (hx : s.insts[k]? = some x)
    (ht : (changeOf x i).takes s.cfg x) : step s = .next (s.afterIssued k i x rest) :=
  (step_of_issued s h hwf).trans (exec_of_takes (s := { s with inputs := rest, sel := k }) hx ht)

/-- A step that goes on has taken the change of the operation issued first. -/
theorem step_issued_next {s t : State} {k : Nat} {i : Instr} {rest : List Input} (hstep : step s = .next t)
    (h : s.inputs = inputOf k i :: rest) (hwf : i.wf s.cfg.hasPush = true) :
    ∃ x, s.insts[k]? = some x ∧ (changeOf x i).takes s.cfg x ∧ t = s.afterIssued k i x rest :=
  exec_next ((step_of_issued s h hwf).symm.trans hstep)

/-- Settles O44: each operation finds its decoder as it was before both, and writes to two places of the list commute. -/
theorem interleavingOfInstancesDoesNotMatter : Obligations.InterleavingOfInstancesDoesNotMatter := by
  intro s m t k k' i i' hk hwf hwf' hm ht
  obtain ⟨x, hx, htakes, rfl⟩ := step_issued_next hm rfl hwf
  obtain ⟨x', hx', htakes', rfl⟩ := step_issued_next ht rfl hwf'
  have hother : s.insts[k']? = some x' := (List.getElem?_set_ne hk).symm.trans hx'
  exact ⟨_, _, step_issued_of_takes { s with inputs := [inputOf k' i', inputOf k i] } rfl hwf' hother htakes',
    step_issued_of_takes _ rfl hwf ((List.getElem?_set_ne hk.symm).trans hx) htakes, List.set_comm _ _ hk.symm⟩

/-- An operation reads nothing of what is still issued and leaves it. -/
theorem exec_with_inputs {i : Instr} {s t : State} (h : exec i s = .next t) (l : List Input) :
    exec i { s with inputs := l } = .next { t with inputs := l } := by
  obtain ⟨x, hc, ht, rfl⟩ := exec_next h
  exact exec_of_takes (s := { s with inputs := l }) hc ht

/-- The machine with a list of well-formed operations issued to the decoder selected runs them as `runOps` does. -/
theorem run_of_issued {ops : List Instr} {s u : State} {os : List Output} (hin : s.inputs = [])
    (hwf : ∀ i ∈ ops, i.wf s.cfg.hasPush = true) (hrun : runOps ops s = some (u, os)) :
    core.run ops.length { s with inputs := ops.map (inputOf s.sel) } = .next u := by
  induction ops generalizing s os with
  | nil =>
    obtain ⟨rfl, rfl⟩ : s = u ∧ [] = os := by simpa using hrun
    rw [List.map_nil, ← hin]
    rfl
  | cons i rest ih =>
    obtain ⟨hi, hrest⟩ := List.forall_mem_cons.mp hwf
    obtain ⟨t, os', hexec, hrun', -⟩ := runOps_cons_inv hrun
    obtain ⟨hcfg, hsel, hinputs, -⟩ := instancesAreIndependent.1 i s t hexec
    have hstep : step { s with inputs := (i :: rest).map (inputOf s.sel) } =
        .next { t with inputs := rest.map (inputOf t.sel) } := by
      rw [step_of_issued { s with inputs := (i :: rest).map (inputOf s.sel) } rfl hi, exec_with_inputs hexec, hsel]
    exact (core_run_succ hstep).trans (ih (hinputs.trans hin) (hcfg.symm ▸ hrest) hrun')

/-- Settles O50. -/
theorem issuedOperationsRunInOrder : Obligations.IssuedOperationsRunInOrder := by
  intro s u os ops hin hwf hrun
  rw [State.issue, hin, List.nil_append]
  exact run_of_issued hin hwf hrun

end Sys2Proof.Machine
end

section
/-! SUPPORT. IDLEs in a run (40_quadrature_decoder.md section 4): an operation reads nothing of the outputs last shown. -/

namespace Sys2Proof.Machine

/-- A decoder without what it last showed: its part of `State.withoutOutputs`. -/
def Decoder.silent (x : Decoder) : Decoder := { x with out := Output.quiet }

theorem changeOf_silent (x : Decoder) (i : Instr) : changeOf x.silent i = changeOf x i := by
  cases i <;> rfl

theorem Change.takes_silent (c : Config) (x : Decoder) (ch : Change) : ch.takes c x.silent ↔ ch.takes c x := by
  cases ch <;> rfl

theorem Change.silent_apply_silent (c : Config) (x : Decoder) (ch : Change) :
    (ch.apply c x.silent).silent = (ch.apply c x).silent := by
  cases ch <;> rfl

theorem State.cur_withoutOutputs (s : State) : s.withoutOutputs.cur = s.cur.map Decoder.silent :=
  List.getElem?_map

theorem State.withoutOutputs_setCur (s : State) (y : Decoder) :
    (s.setCur y).withoutOutputs = s.withoutOutputs.setCur y.silent := by
  simp only [State.setCur, State.withoutOutputs, List.map_set]
  rfl

/-- States that differ in the outputs last shown alone differ in them alone after an operation. -/
theorem exec_next_of_withoutOutputs {i : Instr} {s s' t : State} (hs : s.withoutOutputs = s'.withoutOutputs)
    (h : exec i s = .next t) : ∃ t', exec i s' = .next t' ∧ t.withoutOutputs = t'.withoutOutputs := by
  obtain ⟨x, hc, ht, rfl⟩ := exec_next h
  have hcfg : s.cfg = s'.cfg := congrArg (fun u => u.cfg) hs
  have hcur : s'.cur.map Decoder.silent = some x.silent := by
    rw [← State.cur_withoutOutputs, ← hs, State.cur_withoutOutputs, hc, Option.map_some]
  obtain ⟨x', hc', hx⟩ := Option.map_eq_some_iff.mp hcur
  have hchange : changeOf x' i = changeOf x i := by rw [← changeOf_silent, hx, changeOf_silent]
  have ht' : (changeOf x' i).takes s'.cfg x' := by
    rwa [hchange, ← hcfg, ← Change.takes_silent, hx, Change.takes_silent]
  refine ⟨_, exec_of_takes hc' ht', ?_⟩
  rw [State.withoutOutputs_setCur, State.withoutOutputs_setCur, hs, hchange, ← hcfg,
    ← Change.silent_apply_silent s.cfg x', hx, Change.silent_apply_silent]

/-- Writing a decoder back unchanged changes nothing. -/
theorem State.setCur_of_cur {s : State} {x : Decoder} (h : s.cur = some x) : s.setCur x = s := by
  obtain ⟨_, rfl⟩ := List.getElem?_eq_some_iff.mp h
  simp [State.setCur]

/-- The registers at the end of a run. -/
def registersAfter (ops : List Instr) (s : State) : Option State := (runOps ops s).map fun r => r.1.withoutOutputs

theorem registersAfter_cons {i : Instr} {s t : State} (h : exec i s = .next t) (rest : List Instr) :
    registersAfter (i :: rest) s = registersAfter rest t := by
  rw [registersAfter, runOps_cons h, Option.map_map]
  rfl

theorem registersAfter_cons_of_stop {i : Instr} {s : State} (h : ∀ t, exec i s ≠ .next t) (rest : List Instr) :
    registersAfter (i :: rest) s = none := by
  rw [registersAfter, runOps]
  cases he : exec i s with
  | next t => exact absurd he (h t)
  | fault r => rfl
  | refused r => rfl

/-- The registers at the end of a run do not depend on the outputs last shown before it. -/
theorem registersAfter_of_withoutOutputs (ops : List Instr) {s s' : State} (hs : s.withoutOutputs = s'.withoutOutputs) :
    registersAfter ops s = registersAfter ops s' := by
  induction ops generalizing s s' with
  | nil => exact congrArg some hs
  | cons i rest ih =>
    by_cases hnext : ∃ t, exec i s = .next t
    · obtain ⟨t, he⟩ := hnext
      obtain ⟨t', he', ht⟩ := exec_next_of_withoutOutputs hs he
      rw [registersAfter_cons he, registersAfter_cons he', ih ht]
    · have hstop : ∀ t, exec i s' ≠ .next t := fun t' he' =>
        let ⟨t, he, _⟩ := exec_next_of_withoutOutputs hs.symm he'
        hnext ⟨t, he⟩
      rw [registersAfter_cons_of_stop (not_exists.mp hnext), registersAfter_cons_of_stop hstop]

/-- IDLE leaves every register. -/
theorem withoutOutputs_idle {s : State} {x : Decoder} (hc : s.cur = some x) :
    (s.setCur (idleDecoder x)).withoutOutputs = s.withoutOutputs := by
  rw [State.withoutOutputs_setCur]
  exact State.setCur_of_cur (by rw [State.cur_withoutOutputs, hc, Option.map_some]; rfl)

/-- Settles O40: by induction on the run; an IDLE leaves a state that differs in the outputs last shown alone. -/
theorem idlesHaveNoLaterEffect : Obligations.IdlesHaveNoLaterEffect := by
  intro s x ops hc
  change registersAfter ops s = registersAfter (ops.filter fun i => i ≠ .idle) s
  induction ops generalizing s x with
  | nil => rfl
  | cons i rest ih =>
    by_cases hidle : i = .idle
    · subst hidle
      rw [registersAfter_cons (exec_idle hc), List.filter_cons_of_neg (by simp), ih _ _ (State.cur_setCur hc _)]
      exact registersAfter_of_withoutOutputs _ (withoutOutputs_idle hc)
    · rw [List.filter_cons_of_pos (by simpa using hidle)]
      by_cases hnext : ∃ t, exec i s = .next t
      · obtain ⟨t, he⟩ := hnext
        obtain ⟨x₀, hc₀, -, rfl⟩ := exec_next he
        rw [registersAfter_cons he, registersAfter_cons he, ih _ _ (State.cur_setCur hc₀ _)]
      · have hstop := not_exists.mp hnext
        rw [registersAfter_cons_of_stop hstop, registersAfter_cons_of_stop hstop]

end Sys2Proof.Machine
end

section
/-! SUPPORT. Words that select, words that stop, and the rows of the opcode table (30_encoding.md sections 3, 4 and 6). -/

namespace Sys2Proof

/-- The four bits `r e a b`, written one after the other, are an input word without a button line. -/
theorem opWord_false (r e a b : Bool) :
    (0#4 ++ BitVec.ofBool r ++ BitVec.ofBool e ++ BitVec.ofBool a ++ BitVec.ofBool b : BitVec 8) = opWord false r e a b := by
  revert r e a b; decide

/-- Settles O53. -/
theorem inputWordsSelectTheirOperation : Obligations.InputWordsSelectTheirOperation := by
  intro a b
  have hdecode (r e : Bool) : decode false .op
      (0#4 ++ BitVec.ofBool r ++ BitVec.ofBool e ++ BitVec.ofBool a ++ BitVec.ofBool b : BitVec 8) = .ok (opOfLevels r e a b false) := by
    rw [opWord_false]
    exact decode_opWord rfl r e a b
  exact ⟨hdecode true, hdecode false true, hdecode false false⟩

/-- Settles O54: each is the word of its levels, its index or its Step. -/
theorem writtenWordsDecode : Obligations.WrittenWordsDecode :=
  ⟨decode_opWord (sw := false) rfl true false true true, decode_opWord (sw := false) rfl false true true false,
    decode_opWord (sw := false) rfl false false false false, decode_opWord (sw := true) rfl false true false true,
    decode_gidxWord (sw := false) rfl 0b1101#4, decode_gidxWord (sw := false) rfl 0b0110#4, decode_stepWord false .left⟩

theorem decode_bitsBeyond {hasPush : Bool} {f : Format} {w : Byte} (h : w &&& f.bitsBeyond hasPush ≠ 0#8) :
    decode hasPush f w = .error .bitsBeyondFormat := by
  simp only [decode, if_pos h]

theorem decode_reservedStep (hasPush : Bool) : decode hasPush .step 0b10#8 = .error .reservedStepCode := by
  cases hasPush <;> decide

/-- Settles O51. -/
theorem reservedWordsStopByName : Obligations.ReservedWordsStopByName := by
  refine ⟨fun s i rest hin hbits => Machine.step_of_rejected hin (decode_bitsBeyond hbits), fun s i rest hin hfmt hword => ?_⟩
  refine Machine.step_of_rejected hin ?_
  rw [hfmt, hword, decode_reservedStep]

/-- The low four bits of an input word. -/
def lowBits (w : Byte) : BitVec 4 := w.extractLsb' 0 4

theorem and_low (w : Byte) : w &&& 0xF#8 = (lowBits w).setWidth 8 := by
  apply BitVec.eq_of_toNat_eq
  simp [lowBits, Nat.and_two_pow_sub_one_eq_mod _ 4]
  omega

/-- The numbers of the rows of a format whose fixed bits a word has. -/
def rowNumbers (f : Format) (w : Byte) : List Nat := (opcodeRows.filter fun r => r.matches f w).map fun r => r.number

/-- The rows look at the low four bits alone. -/
theorem rowNumbers_low (f : Format) (w : Byte) : rowNumbers f w = rowNumbers f ((lowBits w).setWidth 8) := by
  have hmask : ∀ r ∈ opcodeRows, 0xF#8 &&& r.mask = r.mask := by decide
  rw [rowNumbers, rowNumbers, ← and_low]
  refine congrArg (List.map _) (List.filter_congr fun r hr => ?_)
  rw [OpcodeRow.matches, OpcodeRow.matches, BitVec.and_assoc, hmask r hr]

theorem rowNumbers_op (bits : BitVec 4) (sw : Bool) :
    rowNumbers .op (bits.setWidth 8) =
      [(opOfLevels (bits.getLsbD 3) (bits.getLsbD 2) (bits.getLsbD 1) (bits.getLsbD 0) sw).rowNumber] := by
  revert bits sw; decide

theorem rowNumbers_gidx (idx : GrayIndex) (sw : Bool) :
    rowNumbers .gidx (idx.setWidth 8) = [(transitionRow idx sw).rowNumber] := by
  revert idx sw; decide

theorem rowNumbers_step {bits : BitVec 4} {st : Step} (h : Step.ofCode? (bits.extractLsb' 0 2) = some st) :
    rowNumbers .step (bits.setWidth 8) = [(applyRow st).rowNumber] := by
  cases st <;> revert bits <;> decide

/-- A word that decodes is, in its low four bits, a word of one row, whatever its button level. -/
theorem rowNumbers_of_decode {hasPush : Bool} {f : Format} {w : Byte} {i : Instr} (h : decode hasPush f w = .ok i) :
    rowNumbers f w = [i.rowNumber] := by
  rw [rowNumbers_low]
  simp only [decode] at h
  split at h
  · contradiction
  · cases f with
    | op =>
      cases h
      simpa [lowBits] using rowNumbers_op (lowBits w) (w.getLsbD 4)
    | gidx =>
      cases h
      exact rowNumbers_gidx (lowBits w) (w.getLsbD 4)
    | step =>
      have hcode : (lowBits w).extractLsb' 0 2 = w.extractLsb' 0 2 := by simp [lowBits]
      cases hst : Step.ofCode? (w.extractLsb' 0 2) with
      | none => simp [hst] at h
      | some st =>
        obtain rfl : applyRow st = i := by simpa [hst] using h
        exact rowNumbers_step (hcode ▸ hst)

/-- Settles O55. -/
theorem decoderFollowsTheOpcodeTable : Obligations.DecoderFollowsTheOpcodeTable :=
  fun _ _ _ _ h => rowNumbers_of_decode h

end Sys2Proof
end

section
/-! SUPPORT. The output word and the port-level form (30_encoding.md sections 3 and 7). -/

namespace Sys2Proof.Machine

/-- The Step code is the two's complement of the step (R73). -/
theorem toInt_code (st : Step) : st.code.toInt = stepValue st := by
  cases st <;> rfl

/-- The two high bits of an index are those of its previous pair. -/
theorem getLsbD_earlierPair (g : GrayIndex) : (earlierPair g).getLsbD 1 = g.getLsbD 3 ∧ (earlierPair g).getLsbD 0 = g.getLsbD 2 := by
  simp [earlierPair]

/-- Settles O56: the output word is the status above the Step code, as an index is a pair above a pair. -/
theorem outputWordCarriesTheOutputs : Obligations.OutputWordCarriesTheOutputs := by
  intro st inv oor pressed
  let o : Output := ⟨st, inv, oor, pressed⟩
  have hstatus : earlierPair o.word = o.status := earlierPair_indexOf _ _
  have hcode : o.word.extractLsb' 0 2 = st.code := storedPair_indexOf _ _
  obtain ⟨hoor, hinv⟩ := getLsbD_earlierPair o.word
  rw [hstatus] at hoor hinv
  obtain ⟨hstatus0, hstatus1⟩ := o.getLsbD_status
  exact ⟨hoor.symm.trans hstatus1, hinv.symm.trans hstatus0, (congrArg BitVec.toInt hcode).trans (toInt_code st)⟩

/-- Settles O57: `r` has priority over `e` for the operation and for the outputs alike. -/
theorem pinsShowTheOutputsOfTheEdge : Obligations.PinsShowTheOutputsOfTheEdge := by
  intro s x rst en a b sw hc hl
  cases rst with
  | true =>
    have he := exec_init hc a b sw
    exact ⟨_, _, he, State.cur_setCur hc _, rfl, by simp [he]⟩
  | false =>
    cases en with
    | true =>
      have he := exec_sample hc hl a b sw
      exact ⟨_, _, he, State.cur_setCur hc _, rfl, by simp [he]⟩
    | false =>
      have he := exec_idle hc
      exact ⟨_, _, he, State.cur_setCur hc _, rfl, by simp [he]⟩

end Sys2Proof.Machine
end

section
/-! SUPPORT. Runs of SAMPLEs (40_quadrature_decoder.md section 6) on the decoder alone: what a list of levels makes of it and shows. -/

namespace Sys2Proof.Machine

/-- The decoder after the SAMPLE of two levels, with the button line at 0. -/
def sampled (c : Config) (x : Decoder) (l : Bool × Bool) : Decoder := sampleDecoder c (sampleIndex x.gray l.1 l.2) false x

/-- The outputs that SAMPLEs of a list of levels show, one after the other. -/
def shownAlong (c : Config) (x : Decoder) : List (Bool × Bool) → List Output
  | [] => []
  | l :: rest => (sampled c x l).out :: shownAlong c (sampled c x l) rest

theorem storedPair_sampled (c : Config) (x : Decoder) (l : Bool × Bool) : storedPair (sampled c x l).gray = pairCode l.1 l.2 :=
  storedPair_sampleIndex _ _ _

theorem accLegal_sampled (c : Config) (x : Decoder) (l : Bool × Bool) : accLegal (sampled c x l).acc = true :=
  accLegal_sampleDecoder _ _ _ _

theorem length_shownAlong (c : Config) (x : Decoder) (levels : List (Bool × Bool)) :
    (shownAlong c x levels).length = levels.length := by
  induction levels generalizing x with
  | nil => rfl
  | cons l rest ih => exact congrArg (· + 1) (ih _)

/-- SAMPLEs of a list of levels all go on after the first INIT, and do to the machine what they do to the decoder. -/
theorem runOps_sampleOps {s : State} {x : Decoder} (hc : s.cur = some x) (hl : x.live = true) (levels : List (Bool × Bool)) :
    ∃ u, runOps (sampleOps levels) s = some (u, shownAlong s.cfg x levels) ∧ u.cur = some (levels.foldl (sampled s.cfg) x) := by
  induction levels generalizing s x with
  | nil => exact ⟨s, rfl, hc⟩
  | cons l rest ih =>
    have hy : (s.setCur (sampled s.cfg x l)).cur = some (sampled s.cfg x l) := State.cur_setCur hc _
    obtain ⟨u, hrun, hu⟩ := ih hy hl
    exact ⟨u, runOps_cons_some (exec_sample hc hl l.1 l.2 false) hy hrun, hu⟩

/-- A SAMPLE of the stored pair is a stay. -/
theorem lookup_sampleIndex_of_repeated {g : GrayIndex} {a b : Bool} (h : storedPair g = pairCode a b) :
    lookup (sampleIndex g a b) = .zero := by
  rw [sampleIndex, h, lookup_indexOf_self]

/-- Repeating the stored pair: each SAMPLE is a stay, and the pair before it is the stored pair from the first on. -/
theorem sampled_replicate (c : Config) {x : Decoder} {a b : Bool} (hacc : accLegal x.acc = true)
    (hpair : storedPair x.gray = pairCode a b) (n : Nat) :
    let z := (List.replicate n (a, b)).foldl (sampled c) x
    z.acc = x.acc ∧ z.ticks = x.ticks ∧ z.pos = x.pos ∧ storedPair z.gray = pairCode a b ∧
      (0 < n ∨ earlierPair x.gray = pairCode a b → earlierPair z.gray = pairCode a b) ∧
      ∀ o ∈ shownAlong c x (List.replicate n (a, b)), o.step = .none ∧ o.inv = false ∧ o.oor = false := by
  induction n generalizing x with
  | zero => exact ⟨rfl, rfl, rfl, hpair, fun h => h.resolve_left (Nat.lt_irrefl 0), by simp [shownAlong]⟩
  | succ n ih =>
    obtain ⟨hnew, hstep, hinv, hoor, hticks, -, hpos⟩ :=
      sampleDecoder_of_stay (lookup_sampleIndex_of_repeated hpair) hacc c false
    obtain ⟨hacc', hticks', hpos', hpair', hearlier, hos⟩ := ih (accLegal_sampled c x (a, b)) (storedPair_sampled c x (a, b))
    exact ⟨hacc'.trans hnew, hticks'.trans hticks, hpos'.trans hpos, hpair',
      fun _ => hearlier (.inr ((earlierPair_sampleIndex _ _ _).trans hpair)),
      List.forall_mem_cons.mpr ⟨⟨hstep, hinv, hoor⟩, hos⟩⟩

/-- Settles O31: the first SAMPLE stores the pair and leaves ACC in range, so the further ones are stays. -/
theorem repeatedPairIsIdempotent : Obligations.RepeatedPairIsIdempotent := by
  intro s x a b n hc hl
  let y := sampled s.cfg x (a, b)
  have hy : (s.setCur y).cur = some y := State.cur_setCur hc y
  have hpair : storedPair y.gray = pairCode a b := storedPair_sampled _ _ _
  obtain ⟨u, hrun, hu⟩ := runOps_sampleOps hy hl (List.replicate n (a, b))
  rw [sampleOps, List.map_replicate] at hrun
  obtain ⟨hacc, hticks, hpos, hpair', hearlier, hos⟩ := sampled_replicate s.cfg (accLegal_sampled s.cfg x (a, b)) hpair n
  exact ⟨_, y, u, _, _, exec_sample hc hl a b false, hy, hrun, hu, hacc, hticks, hpos, hpair'.trans hpair.symm,
    fun hn => (hearlier (.inl hn)).trans hpair.symm, by rw [length_shownAlong, List.length_replicate], hos⟩

/-- Without a step ACC moves by at most one; a step takes an ACC at the end of its range. -/
theorem detect_acc_natAbs {acc : AccWord} (h : accLegal acc = true) (p : InvalidAcc) (e : Entry) :
    ((detect p acc e).step = .none ∧ (detect p acc e).acc.toInt.natAbs ≤ acc.toInt.natAbs + 1) ∨ acc.toInt.natAbs = 3 := by
  rcases detect_cases p acc e with ⟨hl, _⟩ | ⟨_, _, hd⟩ | ⟨hacc, _, _⟩ | ⟨hacc, _, _⟩ | ⟨_, v, hv, hlo, hhi, hd⟩
  · rw [h] at hl
    contradiction
  · rw [hd]
    refine .inl ⟨rfl, ?_⟩
    cases p with
    | hold => exact Nat.le_succ _
    | clear => exact Nat.zero_le _
  · exact .inr (by omega)
  · exact .inr (by omega)
  · have hv1 := entryVal?_range hv
    rw [hd]
    refine .inl ⟨rfl, ?_⟩
    change (BitVec.ofInt 4 (acc.toInt + v)).toInt.natAbs ≤ _
    rw [toInt_ofInt_of_fits (by omega) (by omega)]
    omega

/-- As many SAMPLEs as ACC is away from the end of its range emit nothing. -/
theorem shownAlong_no_step (c : Config) {x : Decoder} {levels : List (Bool × Bool)}
    (h : x.acc.toInt.natAbs + levels.length ≤ 3) : ∀ o ∈ shownAlong c x levels, o.step = .none := by
  induction levels generalizing x with
  | nil => simp [shownAlong]
  | cons l rest ih =>
    rw [List.length_cons] at h
    have hacc : accLegal x.acc = true := (accLegal_iff _).mpr (by omega)
    obtain ⟨hstep, hnew⟩ :=
      (detect_acc_natAbs hacc c.invalidAcc (lookup (sampleIndex x.gray l.1 l.2))).resolve_right (by omega)
    have hnew' : (sampled c x l).acc.toInt.natAbs ≤ x.acc.toInt.natAbs + 1 := hnew
    exact List.forall_mem_cons.mpr ⟨hstep, ih (by omega)⟩

/-- Settles O36: a step leaves ACC at 0, three away from the ends of its range. -/
theorem stepsAreFourSamplesApart : Obligations.StepsAreFourSamplesApart := by
  intro s t y a b sw levels h hy hstep hlen
  obtain ⟨x, -, hl, rfl⟩ := exec_sample_next h hy
  obtain ⟨-, -, hacc⟩ := sampleDecoder_of_step hstep
  obtain ⟨u, hrun, -⟩ := runOps_sampleOps hy hl levels
  exact ⟨u, _, hrun, shownAlong_no_step _ (by rw [hacc]; simpa using hlen)⟩

end Sys2Proof.Machine
end

section
/-! SUPPORT. What a run counts: edges against steps (40_quadrature_decoder.md section 6), TICKS and POS against steps (43_position_counter.md
section 1). -/

namespace Sys2Proof.Machine

/-- Rights minus Lefts. -/
def netSteps (os : List Output) : Int := (countSteps .right os : Int) - countSteps .left os

theorem netSteps_cons (o : Output) (os : List Output) : netSteps (o :: os) = stepValue o.step + netSteps os := by
  obtain ⟨st, inv, oor, pressed⟩ := o
  cases st with
  | none => simp [netSteps, countSteps, stepValue]
  | right => simp [netSteps, countSteps, stepValue]; omega
  | left => simp [netSteps, countSteps, stepValue]; omega

/-- Rights and Lefts together. -/
theorem emitted_cons (o : Output) (os : List Output) :
    countSteps .right (o :: os) + countSteps .left (o :: os) =
      (stepValue o.step).natAbs + (countSteps .right os + countSteps .left os) := by
  obtain ⟨st, inv, oor, pressed⟩ := o
  cases st with
  | none => simp [countSteps, stepValue]
  | right => simp [countSteps, stepValue]; omega
  | left => simp [countSteps, stepValue]; omega

/-- Forward edges minus backward edges. -/
def netEdges (es : List Entry) : Int := (countEntries .plus es : Int) - countEntries .minus es

theorem netEdges_cons {e : Entry} {v : Int} (hv : entryVal? e = some v) (es : List Entry) :
    netEdges (e :: es) = v + netEdges es := by
  cases e with
  | invalid => contradiction
  | zero => cases hv; simp [netEdges, countEntries]
  | plus => cases hv; simp [netEdges, countEntries]; omega
  | minus => cases hv; simp [netEdges, countEntries]; omega

theorem entryVal?_of_ne_invalid {e : Entry} (h : e ≠ .invalid) : ∃ v, entryVal? e = some v := by
  cases e with
  | invalid => contradiction
  | zero | plus | minus => exact ⟨_, rfl⟩

/-- A numeric entry is four times the step ESD emits and the change of ACC. -/
theorem detect_balance {acc : AccWord} (h : accLegal acc = true) (p : InvalidAcc) {e : Entry} {v : Int} (hv : entryVal? e = some v) :
    v = 4 * stepValue (detect p acc e).step + ((detect p acc e).acc.toInt - acc.toInt) := by
  rcases detect_cases p acc e with ⟨hl, _⟩ | ⟨_, rfl, _⟩ | ⟨hacc, rfl, hd⟩ | ⟨hacc, rfl, hd⟩ | ⟨_, v', hv', hlo, hhi, hd⟩
  · rw [h] at hl
    contradiction
  · contradiction
  · cases hv
    rw [hd, hacc]
    rfl
  · cases hv
    rw [hd, hacc]
    rfl
  · obtain rfl : v = v' := Option.some.inj (hv.symm.trans hv')
    rw [hd]
    change v = 0 + ((BitVec.ofInt 4 (acc.toInt + v)).toInt - acc.toInt)
    rw [toInt_ofInt_of_fits (by omega) (by omega)]
    omega

/-- The counting law along a path without INVALID transitions. -/
theorem netEdges_eq (c : Config) {x : Decoder} (hacc : accLegal x.acc = true) {levels : List (Bool × Bool)}
    (hpath : ∀ e ∈ entriesAlong (storedPair x.gray) levels, e ≠ .invalid) :
    netEdges (entriesAlong (storedPair x.gray) levels) =
      4 * netSteps (shownAlong c x levels) + ((levels.foldl (sampled c) x).acc.toInt - x.acc.toInt) := by
  induction levels generalizing x with
  | nil => simp [entriesAlong, shownAlong, netEdges, netSteps, countEntries, countSteps]
  | cons l rest ih =>
    obtain ⟨hedge, hrest⟩ := List.forall_mem_cons.mp hpath
    obtain ⟨v, hv⟩ := entryVal?_of_ne_invalid hedge
    have hfirst : v = 4 * stepValue (sampled c x l).out.step + ((sampled c x l).acc.toInt - x.acc.toInt) :=
      detect_balance hacc _ hv
    rw [← storedPair_sampled c x l] at hrest
    have hlater := ih (accLegal_sampled c x l) hrest
    rw [storedPair_sampled] at hlater
    rw [entriesAlong, netEdges_cons hv, hlater, shownAlong, netSteps_cons, List.foldl_cons]
    omega

/-- Settles O34: summed over the path, each edge is four times a step and a change of ACC. -/
theorem edgesAndStepsObeyTheCountingLaw : Obligations.EdgesAndStepsObeyTheCountingLaw := by
  intro s x levels hc hl hlo hhi hpath
  obtain ⟨u, hrun, hu⟩ := runOps_sampleOps hc hl levels
  exact ⟨u, _, _, hrun, hu, length_shownAlong _ _ _, netEdges_eq s.cfg ((accLegal_iff _).mpr ⟨hlo, hhi⟩) hpath⟩

/-- The line of a listing that walks in the sense of a step: an edge forward or backward, or a stay. -/
def walkLine : Step → Line
  | .none => .same
  | .right => .fwd
  | .left => .bwd

theorem lineOp_walkLine (st : Step) (p : Pair) : lineOp p (walkLine st) = samplePair (linePair p (walkLine st)) := by
  cases st <;> rfl

theorem entryVal?_walkLine (st : Step) (p : Pair) :
    entryVal? (lookup (indexOf p (linePair p (walkLine st)))) = some (stepValue st) := by
  cases st with
  | none => exact congrArg entryVal? (lookup_indexOf_self p)
  | right => exact congrArg entryVal? (lookup_indexOf_forwardPair p)
  | left => exact congrArg entryVal? (lookup_indexOf_backwardPair p)

/-- The sum along a walk in the sense of `st`, from `k` quarters of its cycle: a quarter more, or the step and ACC at 0. -/
theorem detectSum_walk (st : Step) {k : Nat} (hk : k < 4) :
    (detectSum (stepValue st * k + stepValue st)).acc.toInt = stepValue st * ((k + 1) % 4 : Nat) ∧
    (detectSum (stepValue st * k + stepValue st)).step = if k = 3 then st else .none := by
  interval_cases k <;> cases st <;> decide

theorem countSteps_cons (st : Step) (o : Output) (os : List Output) :
    countSteps st (o :: os) = countSteps st os + if o.step = st then 1 else 0 := by
  simp [countSteps, List.countP_cons]

/-- A walk of `n` edges in the sense of `st`, from `k` quarters of its cycle. -/
theorem runOps_walk {st : Step} (hst : st ≠ .none) (n : Nat) {s : State} {x : Decoder} {k : Nat} (hc : s.cur = some x)
    (hl : x.live = true) (hk : k < 4) (hacc : x.acc.toInt = stepValue st * k) :
    ∃ u os y, runOps (assemble (storedPair x.gray) (List.replicate n (walkLine st))) s = some (u, os) ∧ u.cur = some y ∧
      countSteps st os = (k + n) / 4 ∧ (∀ st', st' ≠ st → st' ≠ .none → countSteps st' os = 0) ∧
      y.acc.toInt = stepValue st * ((k + n) % 4 : Nat) := by
  induction n generalizing s x k with
  | zero =>
    refine ⟨s, [], x, rfl, hc, ?_, fun _ _ _ => rfl, ?_⟩
    · simpa [countSteps] using (Nat.div_eq_of_lt hk).symm
    · rw [Nat.add_zero, Nat.mod_eq_of_lt hk, hacc]
  | succ n ih =>
    let p := storedPair x.gray
    let y := sampleDecoder s.cfg (indexOf p (linePair p (walkLine st))) false x
    have hy : (s.setCur y).cur = some y := State.cur_setCur hc y
    have hlegal : accLegal x.acc = true := (accLegal_iff _).mpr (by rw [hacc]; cases st <;> simp only [stepValue] <;> omega)
    have hdetect := detect_numeric hlegal s.cfg.invalidAcc (entryVal?_walkLine st p)
    rw [hacc] at hdetect
    obtain ⟨hnew, hstep, -⟩ := sampleDecoder_of_detect (sw := false) hdetect
    obtain ⟨hsumAcc, hsumStep⟩ := detectSum_walk st hk
    obtain ⟨u, os, z, hrun, hz, hcount, hother, hzacc⟩ :=
      ih hy hl (Nat.mod_lt (k + 1) (by decide)) ((congrArg BitVec.toInt hnew).trans hsumAcc)
    have hshown : y.out.step = if k = 3 then st else .none := hstep.trans hsumStep
    rw [show storedPair y.gray = linePair p (walkLine st) from storedPair_indexOf _ _] at hrun
    refine ⟨u, y.out :: os, z, runOps_cons_some ?_ hy hrun, hz, ?_, fun st' hne hnone => ?_, ?_⟩
    · rw [lineOp_walkLine]
      exact exec_samplePair hc hl _
    · rw [countSteps_cons, hcount, hshown]
      by_cases h3 : k = 3
      · rw [if_pos h3, if_pos rfl]
        omega
      · rw [if_neg h3, if_neg hst.symm]
        omega
    · rw [countSteps_cons, hother st' hne hnone, hshown]
      split
      · rw [if_neg hne.symm]
      · rw [if_neg hnone.symm]
    · rw [hzacc]
      congr 2
      omega

/-- Settles O35: the two senses of one walk, from no quarter of the cycle. -/
theorem pureWalksEmitOneStepInFour : Obligations.PureWalksEmitOneStepInFour := by
  intro s x n hc hl hacc
  have hzero (st : Step) : x.acc.toInt = stepValue st * (0 : Nat) := by
    rw [hacc, Nat.cast_zero, Int.mul_zero]
    rfl
  refine ⟨?_, ?_⟩
  · obtain ⟨u, os, y, hrun, hu, hcount, hother, hy⟩ := runOps_walk (st := .right) (by decide) n hc hl (by decide) (hzero _)
    rw [Nat.zero_add] at hcount hy
    exact ⟨u, os, y, hrun, hu, hcount, hother .left (by decide) (by decide), by rw [hy, stepValue, Int.one_mul]⟩
  · obtain ⟨u, os, y, hrun, hu, hcount, hother, hy⟩ := runOps_walk (st := .left) (by decide) n hc hl (by decide) (hzero _)
    rw [Nat.zero_add] at hcount hy
    exact ⟨u, os, y, hrun, hu, hcount, hother .right (by decide) (by decide), by rw [hy, stepValue, Int.neg_one_mul]⟩

/-- TICKS and POS are `emitted` and `net`, each in its width. -/
def Decoder.Counts (c : Config) (x : Decoder) (emitted : Nat) (net : Int) : Prop :=
  x.ticks = wrapUnsigned c.tickW emitted ∧ (c.hasPos = true → x.pos = wrapSigned c.posW net)

theorem counts_initDecoder (c : Config) (a b sw : Bool) (x : Decoder) : Decoder.Counts c (initDecoder c a b sw x) 0 0 :=
  ⟨(Nat.zero_mod _).symm, fun h => by simp [h, wrapSigned]⟩

theorem ticksAfter_wrapUnsigned (w : Nat) (st : Step) (n : Nat) :
    ticksAfter w st (wrapUnsigned w n) = wrapUnsigned w (n + (stepValue st).natAbs) := by
  cases st with
  | none => rfl
  | right => exact wrapUnsigned_add _ _ _
  | left => exact wrapUnsigned_add _ _ _

theorem posAfter_wrapSigned (w : Nat) (st : Step) (d : Int) :
    posAfter w st (wrapSigned w d) = wrapSigned w (d + stepValue st) := by
  cases st with
  | none => rw [posAfter, stepValue, Int.add_zero]
  | right => exact wrapSigned_add _ _ _
  | left => exact wrapSigned_add _ _ _

/-- SAMPLE counts the step it shows. -/
theorem Decoder.Counts.sample {c : Config} {x : Decoder} {n : Nat} {d : Int} (h : Decoder.Counts c x n d) (idx : GrayIndex) (sw : Bool) :
    Decoder.Counts c (sampleDecoder c idx sw x) (n + (stepValue (sampleDecoder c idx sw x).out.step).natAbs)
      (d + stepValue (sampleDecoder c idx sw x).out.step) := by
  obtain ⟨hticks, hpos⟩ := h
  refine ⟨?_, fun hp => ?_⟩
  · rw [sampleDecoder_ticks_by_step, hticks, ticksAfter_wrapUnsigned]
  · rw [sampleDecoder_pos_by_step hp, hpos hp, posAfter_wrapSigned]

/-- SAMPLE and IDLE go on, and count the step they show. -/
theorem exec_counts {s : State} {x : Decoder} (hc : s.cur = some x) (hl : x.live = true) {n : Nat} {d : Int}
    (h : Decoder.Counts s.cfg x n d) {i : Instr} (hi : i = .idle ∨ ∃ a b sw, i = Instr.sample a b sw) :
    ∃ y, exec i s = .next (s.setCur y) ∧ y.live = true ∧
      Decoder.Counts s.cfg y (n + (stepValue y.out.step).natAbs) (d + stepValue y.out.step) := by
  obtain rfl | ⟨a, b, sw, rfl⟩ := hi
  · refine ⟨_, exec_idle hc, hl, ?_⟩
    rw [idleDecoder_out, Output.quiet_step, stepValue, Int.add_zero]
    exact h
  · exact ⟨_, exec_sample hc hl a b sw, hl, h.sample _ _⟩

/-- After a run TICKS and POS have counted the steps it showed. -/
theorem runOps_counts {ops : List Instr} (hops : ∀ i ∈ ops, i = .idle ∨ ∃ a b sw, i = Instr.sample a b sw) {s : State}
    {x : Decoder} (hc : s.cur = some x) (hl : x.live = true) {n : Nat} {d : Int} (h : Decoder.Counts s.cfg x n d) :
    ∃ u os y, runOps ops s = some (u, os) ∧ u.cur = some y ∧ os.length = ops.length ∧
      Decoder.Counts s.cfg y (n + (countSteps .right os + countSteps .left os)) (d + netSteps os) := by
  induction ops generalizing s x n d with
  | nil => exact ⟨s, [], x, rfl, hc, rfl, by simpa [countSteps, netSteps] using h⟩
  | cons i rest ih =>
    obtain ⟨hi, hrest⟩ := List.forall_mem_cons.mp hops
    obtain ⟨y, hexec, hyl, hyc⟩ := exec_counts hc hl h hi
    have hy : (s.setCur y).cur = some y := State.cur_setCur hc y
    obtain ⟨u, os, z, hrun, hz, hlen, hcount⟩ := ih hrest hy hyl hyc
    refine ⟨u, y.out :: os, z, runOps_cons_some hexec hy hrun, hz, congrArg (· + 1) hlen, ?_⟩
    rw [emitted_cons, netSteps_cons, ← Nat.add_assoc, ← Int.add_assoc]
    exact hcount

/-- A value wraps by a multiple of `2^w`. -/
theorem wrapSigned_sub_emod (w : Nat) (d : Int) : (wrapSigned w d - d) % 2 ^ w = 0 := by
  have hdvd : ((2 ^ w : Nat) : Int) ∣ wrapSigned w d - d := Int.dvd_bmod_sub_self
  rw [Nat.cast_pow] at hdvd
  exact Int.emod_eq_zero_of_dvd hdvd

/-- Settles O38: INIT starts both counts at 0. -/
theorem positionAndTicksCountTheRun : Obligations.PositionAndTicksCountTheRun := by
  intro s x a b sw ops hc hops
  let y := initDecoder s.cfg a b sw x
  have hy : (s.setCur y).cur = some y := State.cur_setCur hc y
  obtain ⟨u, os, z, hrun, hz, hlen, hticks, hpos⟩ := runOps_counts hops hy rfl (counts_initDecoder s.cfg a b sw x)
  refine ⟨u, y.out :: os, z, runOps_cons_some (exec_init hc a b sw) hy hrun, hz, congrArg (· + 1) hlen, ?_, fun hp => ?_⟩
  · rw [hticks, emitted_cons]
    rfl
  · have hnet : netSteps (y.out :: os) = 0 + netSteps os := netSteps_cons _ _
    change (z.pos - netSteps (y.out :: os)) % 2 ^ s.cfg.posW = 0 ∧ _
    rw [hpos hp, hnet]
    exact ⟨wrapSigned_sub_emod _ _, wrapSigned_range _ _⟩

end Sys2Proof.Machine
end

section
/-! SUPPORT. Exchanging A and B (20_memory.md sections 2 and 3): negated entries, a negated accumulator, the opposite step. -/

namespace Sys2Proof.Machine

theorem isInvalid_negEntry (e : Entry) : isInvalid (negEntry e) = isInvalid e := by
  cases e <;> rfl

theorem entryVal?_negEntry {e : Entry} {v : Int} (hv : entryVal? e = some v) : entryVal? (negEntry e) = some (-v) := by
  cases e with
  | invalid => contradiction
  | zero | plus | minus => cases hv; rfl

/-- The tests on the opposite sum. -/
theorem detectSum_neg {v : Int} (hlo : -4 ≤ v) (hhi : v ≤ 4) :
    (detectSum (-v)).step = negStep (detectSum v).step ∧ (detectSum (-v)).acc.toInt = -(detectSum v).acc.toInt := by
  interval_cases v <;> decide

/-- ESD on the opposite accumulator and the negated entry. -/
theorem detect_neg {acc acc' : AccWord} (h : accLegal acc = true) (hneg : acc'.toInt = -acc.toInt) {p p' : InvalidAcc}
    (hp : p' = p) {e e' : Entry} (he' : e' = negEntry e) :
    (detect p' acc' e').step = negStep (detect p acc e).step ∧ (detect p' acc' e').acc.toInt = -(detect p acc e).acc.toInt := by
  subst hp he'
  have hr := (accLegal_iff _).mp h
  have h' : accLegal acc' = true := (accLegal_iff _).mpr (by omega)
  by_cases he : e = .invalid
  · subst he
    rw [negEntry, detect_invalid h, detect_invalid h']
    cases p' with
    | hold => exact ⟨rfl, hneg⟩
    | clear => exact ⟨rfl, rfl⟩
  · obtain ⟨v, hv⟩ := entryVal?_of_ne_invalid he
    have hv1 := entryVal?_range hv
    rw [detect_numeric h p' hv, detect_numeric h' p' (entryVal?_negEntry hv), hneg, ← Int.neg_add]
    exact detectSum_neg (by omega) (by omega)

theorem pairCode_swapped (a b : Bool) : pairCode b a = swapPair (pairCode a b) := by
  revert a b; decide

/-- Two decoders that mirror each other show opposite steps and the same `inv` along a path and its mirror. -/
theorem shownAlong_swapped {c c' : Config} (hcfg : c'.invalidAcc = c.invalidAcc) (levels : List (Bool × Bool)) {x x' : Decoder}
    (hacc : accLegal x.acc = true) (hneg : x'.acc.toInt = -x.acc.toInt) (hpair : storedPair x'.gray = swapPair (storedPair x.gray)) :
    (shownAlong c' x' (levels.map fun l => (l.2, l.1))).map (fun o => (o.step, o.inv)) =
      (shownAlong c x levels).map fun o => (negStep o.step, o.inv) := by
  induction levels generalizing x x' with
  | nil => rfl
  | cons l rest ih =>
    have hentry : lookup (sampleIndex x'.gray l.2 l.1) = negEntry (lookup (sampleIndex x.gray l.1 l.2)) := by
      rw [sampleIndex, hpair, pairCode_swapped, lookup_indexOf_swapPair, sampleIndex]
    have hinv : isInvalid (lookup (sampleIndex x'.gray l.2 l.1)) = isInvalid (lookup (sampleIndex x.gray l.1 l.2)) := by
      rw [hentry, isInvalid_negEntry]
    obtain ⟨hstep, hnew⟩ := detect_neg hacc hneg hcfg hentry
    have hstored : storedPair (sampled c' x' (l.2, l.1)).gray = swapPair (storedPair (sampled c x l).gray) := by
      rw [storedPair_sampled, storedPair_sampled, pairCode_swapped]
    exact congrArg₂ List.cons (Prod.ext hstep hinv) (ih (accLegal_sampled c x l) hnew hstored)

/-- Settles O39. -/
theorem swappedLinesExchangeRightAndLeft : Obligations.SwappedLinesExchangeRightAndLeft := by
  intro s s' x x' levels hc hc' hl hl' hcfg hlo hhi hneg hpair
  obtain ⟨u, hrun, -⟩ := runOps_sampleOps hc hl levels
  obtain ⟨u', hrun', -⟩ := runOps_sampleOps hc' hl' (levels.map fun l => (l.2, l.1))
  exact ⟨u, u', _, _, hrun, hrun', length_shownAlong _ _ _,
    shownAlong_swapped hcfg levels ((accLegal_iff _).mpr ⟨hlo, hhi⟩) hneg hpair⟩

end Sys2Proof.Machine
end
